-- ==== Sys2Proof/Word.lean ====
section
/-! DEFINITION. The fixed-width values of the command interface (00_scope.md R9, R12): a byte of the HOST's
byte view, and the 64-bit operands and result. Words of BUF are `BitVec WORD_BITS`, with WORD_BITS in Config. -/

namespace Sys2Proof

/-- One byte of a HOST byte view of BUF (20_memory.md R43). -/
abbrev Byte := BitVec 8

/-- An operand IDX or VAL, or the result RES: 64 bits (00_scope.md R9). -/
abbrev Word64 := BitVec 64

end Sys2Proof
end

