-- ==== Sys2Proof/Config.lean ====
section
/-! DEFINITION. The parameters of an instance of the BITPACK core (00_scope.md R6 to R11, 10_state.md R30) and the
free values of the model. A parameter is plain data: State carries one `Config` that no step changes, so that a
statement about every state is a statement about every instance (log entry 1). -/

namespace Sys2Proof

/-- WORD_BITS, "one of 8, 16, 32 or 64" (00_scope.md R6). -/
inductive WordBits where
  | w8 | w16 | w32 | w64
  deriving DecidableEq, Repr

/-- The width in bits. -/
def WordBits.bits : WordBits → Nat
  | .w8 => 8
  | .w16 => 16
  | .w32 => 32
  | .w64 => 64

/-- The bytes of a word in a HOST byte view, WORD_BITS / 8 (20_memory.md R43). -/
def WordBits.bytes : WordBits → Nat
  | .w8 => 1
  | .w16 => 2
  | .w32 => 4
  | .w64 => 8

/-- HOST_BYTE_ORDER (20_memory.md R43). -/
inductive ByteOrder where
  | little | big
  deriving DecidableEq, Repr

/-- The parameters of an instance (00_scope.md, the table after R11; `debugChecker` is 60_exceptions.md R158). -/
structure Config where
  /-- WORD_BITS, R6. -/
  wordBits : WordBits
  /-- FIXED_W: NONE, or the width of a compile-time-width instance, R7. -/
  fixedW : Option Nat
  /-- BUF_WORDS, R8. -/
  bufWords : Nat
  /-- HOST_BYTE_ORDER, 20_memory.md R43. -/
  byteOrder : ByteOrder
  /-- LATENCY, R11: no rule depends on it (70_reset_and_hazards.md R185). -/
  latency : Nat
  /-- Whether the build has the optional debug checker of R158: no rule depends on it. -/
  debugChecker : Bool
  deriving DecidableEq, Repr

namespace Config

/-- WORD_BITS as a number: the width of a word of BUF. -/
def wb (c : Config) : Nat := c.wordBits.bits

/-- The values the parameters may take (R6, R7, R8, R11). -/
def wf (c : Config) : Bool :=
  (match c.fixedW with
    | none => true
    | some f => decide (1 ≤ f) && decide (f ≤ c.wb)) &&
  decide (c.bufWords ≤ 2 ^ 64) && decide (1 ≤ c.latency)

/-- Free value: what a left shift by WORD_BITS or more would give. "A shift by WORD_BITS or more is not a
primitive of this datapath" (00_scope.md R15); no command reaches it (40_codec.md R89). Log entry 9. -/
opaque shlOutOfRange : (wb : Nat) → BitVec wb → Nat → BitVec wb

/-- Free value: what a right shift by WORD_BITS or more would give (00_scope.md R15). Log entry 9. -/
opaque shrOutOfRange : (wb : Nat) → BitVec wb → Nat → BitVec wb

end Config

end Sys2Proof
end

