-- ==== Sys2Proof/Syntax.lean ====
section
/-! DEFINITION. The commands of the BITPACK core (00_scope.md R2, 30_encoding.md R66), one constructor per row of
spec/opcode_table.json. -/

namespace Sys2Proof

/-- A decoded command. W and IDX are read as unsigned naturals (30_encoding.md R61, R63); VAL is a 64-bit value
that only SET reads (R64). -/
inductive Instr where
  /-- `GET w, i` (40_codec.md R101). -/
  | get (w i : Nat)
  /-- `SET w, i, v` (40_codec.md R104). -/
  | set (w i : Nat) (v : Word64)
  /-- `PACKS w, n` (41_sizing.md R121). -/
  | packs (w n : Nat)
  /-- `WSEL bits` (41_sizing.md R126). -/
  | wsel (n : Nat)
  deriving DecidableEq, Repr

end Sys2Proof
end

