-- ==== Sys2Proof/WellFormed.lean ====
section
/-! DEFINITION. What a command word and its operands can carry: W is seven bits and IDX is sixty-four
(30_encoding.md R60, R61, R63). A width that is encodable but not accepted (0, or more than WORD_BITS) is well
formed: the width check rejects it, not the decoder (R61). -/

namespace Sys2Proof

/-- W = CMD[10:4] holds 0..127 (R61). -/
def widthEncodable (w : Nat) : Bool := decide (w < 2 ^ 7)

/-- IDX holds 0..2^64 - 1 (R63). -/
def indexEncodable (i : Nat) : Bool := decide (i < 2 ^ 64)

/-- The operands of the command fit its fields. -/
def Instr.wellFormed : Instr → Bool
  | .get w i => widthEncodable w && indexEncodable i
  | .set w i _ => widthEncodable w && indexEncodable i
  | .packs w n => widthEncodable w && indexEncodable n
  | .wsel n => indexEncodable n

end Sys2Proof
end

