-- ==== Sys2Proof/Decode.lean ====
section
/-! DEFINITION. The command interface: the command word and its operands, the decoder in the order of
30_encoding.md R69, and the encoder of R73. -/

namespace Sys2Proof

/-- One command as HOST presents it: CMD and the operands IDX and VAL (30_encoding.md R60). -/
structure Command where
  cmd : BitVec 16
  idx : Word64
  val : Word64
  deriving DecidableEq, Repr

/-- Why a command word selects no operation (R69); each names the model fault it raises. -/
inductive DecodeReject where
  /-- OP is 0x0 or 0x5..0xF: F_OPCODE (R67). -/
  | opcode
  /-- RSV ≠ 0 with a defined OP: F_RESERVED (R62). -/
  | reservedBits
  /-- WSEL with W ≠ 0: F_RESERVED (R68). -/
  | wselWidth
  deriving DecidableEq, Repr

/-- OP, CMD[3:0] (R60). -/
def Command.op (c : Command) : Nat := (c.cmd.extractLsb' 0 4).toNat

/-- W, CMD[10:4], "the width itself (not width minus one)" (R60, R61). -/
def Command.w (c : Command) : Nat := (c.cmd.extractLsb' 4 7).toNat

/-- RSV, CMD[15:11] (R60, R62). -/
def Command.rsv (c : Command) : Nat := (c.cmd.extractLsb' 11 5).toNat

/-- The decode order of 30_encoding.md R69. The width and index checks come after it. -/
def decode (c : Command) : Except DecodeReject Instr :=
  if ¬ (c.op = 1 ∨ c.op = 2 ∨ c.op = 3 ∨ c.op = 4) then .error .opcode
  else if c.rsv ≠ 0 then .error .reservedBits
  else if c.op = 4 ∧ c.w ≠ 0 then .error .wselWidth
  else if c.op = 1 then .ok (.get c.w c.idx.toNat)
  else if c.op = 2 then .ok (.set c.w c.idx.toNat c.val)
  else if c.op = 3 then .ok (.packs c.w c.idx.toNat)
  else .ok (.wsel c.idx.toNat)

/-- The command R73 gives each syntax form: CMD = 16 × w + OP, and VAL 0 where it is ignored. -/
def encode : Instr → Command
  | .get w i => { cmd := BitVec.ofNat 16 (16 * w + 1), idx := BitVec.ofNat 64 i, val := 0 }
  | .set w i v => { cmd := BitVec.ofNat 16 (16 * w + 2), idx := BitVec.ofNat 64 i, val := v }
  | .packs w n => { cmd := BitVec.ofNat 16 (16 * w + 3), idx := BitVec.ofNat 64 n, val := 0 }
  | .wsel n => { cmd := BitVec.ofNat 16 4, idx := BitVec.ofNat 64 n, val := 0 }

/-- A command laid out as one number for the host's probes: CMD in bits 15..0, IDX in bits 79..16, VAL in bits
143..80; bits at and above `nbits` are 0. DESIGN CHOICE, log entry 12: the spec presents the three on a port. -/
def Command.ofBits (nbits w : Nat) : Command :=
  let x := w % 2 ^ nbits
  { cmd := BitVec.ofNat 16 x
    idx := BitVec.ofNat 64 (x / 2 ^ 16)
    val := BitVec.ofNat 64 (x / 2 ^ 80) }

/-- The instruction the decoder reads from a row's bits. -/
def decodeTableWord (nbits w : Nat) : Option Instr :=
  match decode (Command.ofBits nbits w) with
  | .ok i => some i
  | .error _ => none

end Sys2Proof
end

