-- ==== Sys2Proof/Machine/State.lean ====
section
/-! DEFINITION. The state of the machine (10_state.md): BUF, RES and FAULT, the instance's parameters, and the
HOST actions still to come; plain data throughout. -/

namespace Sys2Proof.Machine

/-- The model faults of 60_exceptions.md R140: the values of FAULT, and the reasons a step from a state with FAULT
set stops. Whether an encoding fault or an out-of-range value, the machine takes one next state with FAULT set and
nothing else changed, and stops at the next step. -/
inductive Fault where
  /-- F_OPCODE (R141): a command whose OP is 0x0 or 0x5..0xF. Safe: the spec's own encoding, exact (R151). -/
  | fOpcode
  /-- F_RESERVED (R142): RSV ≠ 0, or W ≠ 0 in WSEL. Safe: exact (R151). -/
  | fReserved
  /-- F_WIDTH (R143): GET, SET or PACKS with a width the instance does not accept. Safe where the claim takes
  FAULT = none as a premise: it stands for undefined behaviour (R149, R151); log entry 7. -/
  | fWidth
  /-- F_INDEX (R144): GET or SET of an element beyond BUF. Safe as F_WIDTH is. -/
  | fIndex
  /-- F_WSEL_RANGE (R145): WSEL of more than 64 bits. Safe as F_WIDTH is. -/
  | fWselRange
  /-- F_RES_UNWRITTEN (R146, 10_state.md R24, 92_eei_decisions.md D13, 93_implementation_defined.md U27): a HOST read
  of RES while it holds no value. No command raises it. Safe (R151). -/
  | fResUnwritten
  deriving DecidableEq, Repr

/-- Why the model has no such move. -/
inductive Refusal where
  /-- An instruction without a meaning yet; raised by `exec`. Safe. -/
  | notModelled (mnemonic : String)
  /-- A word address outside 0..BUF_WORDS-1: "the memory port's address space is word addresses 0..BUF_WORDS-1"
  (20_memory.md R57). Raised by a HOST access to such a word; CORE never makes one (R57). Safe; log entry 8. -/
  | noSuchWord (k : Nat)
  /-- A HOST write of a value that is not a WORD_BITS-bit value (10_state.md R33). Safe; log entry 8. -/
  | valueTooWide (v : Word64)
  deriving DecidableEq, Repr

/-- "What HOST may do to the state, and nothing else" (10_state.md R33, 30_encoding.md R74). -/
inductive HostAction where
  /-- Issue a command with operands (CMD, IDX, VAL). -/
  | issue (c : Command)
  /-- `HOST.READ RES`. -/
  | readRes
  /-- `HOST.READ BUF[k]`. -/
  | readBuf (k : Nat)
  /-- `HOST.WRITE BUF[k], v`. -/
  | writeBuf (k : Nat) (v : Word64)
  /-- `RESET`. -/
  | reset
  deriving DecidableEq, Repr

/-- BUF as the bytes of the HOST byte view (20_memory.md R43): byte `m` of word `k` at address
`k × WORD_BITS/8 + m`. Addresses strictly rising, no entry equal to the unlisted byte (`Memory.wf`, log entry 2). -/
abbrev Memory := List Host.Cell

/-- The state (10_state.md R22, with the parameters of R30). -/
structure State where
  /-- The instance's parameters: no step changes them (R30). -/
  cfg : Config
  /-- BUF, R22(a). -/
  buf : Memory
  /-- RES, or the mark `no value`, R22(b) and R24. -/
  res : Option Word64
  /-- FAULT, R22(c) and R27. -/
  fault : Option Fault
  /-- The MODEL's own: the HOST's coming actions, first next (log entry 5). -/
  pending : List HostAction
  /-- The MODEL's own: what the HOST's reads returned, newest first (log entry 6). -/
  reads : List Word64
  deriving DecidableEq, Repr

/-- A launch state (70_reset_and_hazards.md R171): RES holds no value, FAULT is none, and BUF is a launch input. -/
def State.powerUp (cfg : Config) (buf : Memory) : State :=
  { cfg := cfg, buf := buf, res := none, fault := none, pending := [], reads := [] }

/-- The parameters `State.reset` takes: FIXED_W at the spec's default NONE, the OPEN ones at a DESIGN CHOICE
(log entry 1). -/
def defaultConfig : Config :=
  { wordBits := .w64, fixedW := none, bufWords := 2 ^ 64, byteOrder := .little, latency := 1,
    debugChecker := false }

/-- The machine right after reset (10_state.md R32): a launch state whose BUF lists nothing (log entry 3). -/
def State.reset : State := State.powerUp defaultConfig []

end Sys2Proof.Machine
end

