-- ==== Sys2Proof/Machine/Ops.lean ====
section
/-! DEFINITION. The named operations over BUF, RES and FAULT: bytes and words of BUF, the memory port, raising a
model fault, writing RES. -/

namespace Sys2Proof.Machine

/-! ### BUF as bytes -/

/-- What a byte that nothing has listed reads as. DESIGN CHOICE, log entry 3: the spec leaves the power-up content
arbitrary (20_memory.md R46); a state lists whatever content differs. -/
def unlistedByte : Byte := 0

/-- The byte at an address of the HOST byte view. -/
def Memory.readByte : Memory → Nat → Byte
  | [], _ => unlistedByte
  | (a, b) :: m, n => if n = a then b else Memory.readByte m n

/-- Replace one byte and keep the canonical form. -/
def Memory.writeByte : Memory → Nat → Byte → Memory
  | [], n, b => if b = unlistedByte then [] else [(n, b)]
  | (a, x) :: m, n, b =>
    if n < a then (if b = unlistedByte then (a, x) :: m else (n, b) :: (a, x) :: m)
    else if n = a then (if b = unlistedByte then m else (a, b) :: m)
    else (a, x) :: Memory.writeByte m n b

/-- The canonical form from address `lo` on: strictly rising, no entry at the unlisted byte. -/
def Memory.wfFrom : Nat → Memory → Bool
  | _, [] => true
  | lo, (a, b) :: m => decide (lo ≤ a) && decide (b ≠ unlistedByte) && Memory.wfFrom (a + 1) m

/-- The canonical form of a memory: equal memories are equal lists. -/
def Memory.wf (m : Memory) : Bool := Memory.wfFrom 0 m

/-- Every listed address lies below `size`. -/
def Memory.within (size : Nat) (m : Memory) : Bool := m.all fun x => decide (x.1 < size)

/-! ### BUF as words -/

/-- The bytes of BUF: BUF_WORDS × WORD_BITS / 8. -/
def byteSize (c : Config) : Nat := c.bufWords * c.wordBits.bytes

/-- The address of the byte that holds bits 8j+7..8j of word `k` (20_memory.md R43): under LITTLE it is byte `j` of
the word, under BIG byte WORD_BITS/8 - 1 - j. -/
def byteAddr (c : Config) (k j : Nat) : Nat :=
  k * c.wordBits.bytes +
    match c.byteOrder with
    | .little => j
    | .big => c.wordBits.bytes - 1 - j

/-- The number whose byte `j`, from the least significant, is `f j`, for `j < n`. -/
def joinBytes (f : Nat → Byte) : Nat → Nat
  | 0 => 0
  | n + 1 => joinBytes f n + (f n).toNat * 2 ^ (8 * n)

/-- The storage word `BUF[k]` (00_scope.md R16). -/
def Memory.word (c : Config) (m : Memory) (k : Nat) : BitVec c.wb :=
  BitVec.ofNat c.wb (joinBytes (fun j => m.readByte (byteAddr c k j)) c.wordBits.bytes)

/-- Store the low `n` bytes of a word. -/
def Memory.storeBytes (c : Config) (k : Nat) (v : BitVec c.wb) : Nat → Memory → Memory
  | 0, m => m
  | j + 1, m => (Memory.storeBytes c k v j m).writeByte (byteAddr c k j) (v.extractLsb' (8 * j) 8)

/-- Replace the storage word `BUF[k]` (00_scope.md R16). -/
def Memory.setWord (c : Config) (m : Memory) (k : Nat) (v : BitVec c.wb) : Memory :=
  Memory.storeBytes c k v c.wordBits.bytes m

/-- The words of a buffer read as one natural number, for the first `n` words (20_memory.md R41). -/
def Memory.value (c : Config) (m : Memory) : Nat → Nat
  | 0 => 0
  | n + 1 => Memory.value c m n + (Memory.word c m n).toNat * 2 ^ (n * c.wb)

/-- Buffer bit `p`: bit `p mod WORD_BITS` of word `p div WORD_BITS` (20_memory.md R40). -/
def Memory.bit (c : Config) (m : Memory) (p : Nat) : Bool :=
  (Memory.word c m (p / c.wb)).getLsbD (p % c.wb)

/-- `BUF[k]` of a state. -/
abbrev State.word (s : State) (k : Nat) : BitVec s.cfg.wb := s.buf.word s.cfg k

/-- Buffer bit `p` of a state. -/
abbrev State.bufBit (s : State) (p : Nat) : Bool := s.buf.bit s.cfg p

/-- The buffer value B of 20_memory.md R41. -/
abbrev State.bufValue (s : State) : Nat := s.buf.value s.cfg s.cfg.bufWords

/-- What every reachable state has: legal parameters, and a canonical memory inside BUF. -/
def State.wf (s : State) : Bool :=
  s.cfg.wf && s.buf.wf && s.buf.within (byteSize s.cfg)

/-! ### The memory port -/

/-- What a command does at the memory port, in order: whole-word reads and writes only (20_memory.md R45), then
the value it gives RES, if any. A command is one such program, so its accesses and their order (R51) stand in it. -/
inductive PortProg (wb : Nat) where
  /-- The command is complete; `some v` is `RES <- v`. -/
  | done (res : Option Word64)
  /-- `MemRead(k, 1)`, its value given to the rest. -/
  | read (k : Nat) (rest : BitVec wb → PortProg wb)
  /-- `MemWrite(k, 1, v)`. -/
  | write (k : Nat) (v : BitVec wb) (rest : PortProg wb)

/-- One access at the memory port (30_encoding.md R72(c)), with the word moved. -/
inductive Access (wb : Nat) where
  | read (k : Nat) (v : BitVec wb)
  | write (k : Nat) (v : BitVec wb)
  deriving DecidableEq, Repr

/-- Run a command at the port as one atomic step, no other agent acting (10_state.md R20, 20_memory.md R50). A word
address outside BUF does not exist (R57); no command reaches that case (log entry 14). -/
def PortProg.run (c : Config) : PortProg c.wb → Memory → Except Nat (Memory × Option Word64)
  | .done r, m => .ok (m, r)
  | .read k rest, m => if k < c.bufWords then PortProg.run c (rest (m.word c k)) m else .error k
  | .write k v rest, m => if k < c.bufWords then PortProg.run c rest (m.setWord c k v) else .error k

/-- The accesses of that run, in order (R45, R51). -/
def PortProg.accesses (c : Config) : PortProg c.wb → Memory → List (Access c.wb)
  | .done _, _ => []
  | .read k rest, m =>
    if k < c.bufWords then .read k (m.word c k) :: PortProg.accesses c (rest (m.word c k)) m else []
  | .write k v rest, m =>
    if k < c.bufWords then .write k v :: PortProg.accesses c rest (m.setWord c k v) else []

/-- Word writes of other agents, in order; an address outside BUF does not exist. -/
def otherWrites (c : Config) : List (Nat × BitVec c.wb) → Memory → Memory
  | [], m => m
  | (k, v) :: ws, m => otherWrites c ws (if k < c.bufWords then m.setWord c k v else m)

/-- A command among other writers of BUF (20_memory.md R52, 92_eei_decisions.md D26): split into its word events,
`env` giving the word writes the other agents land before each event, the last group after the command's last event.
Every `env` is an interleaving. No step of the one-CORE model does this (log entry 10). -/
def PortProg.runAmong (c : Config) :
    PortProg c.wb → List (List (Nat × BitVec c.wb)) → Memory → Except Nat (Memory × Option Word64)
  | .done r, env, m => .ok (otherWrites c env.flatten m, r)
  | .read k rest, env, m =>
    let m' := otherWrites c (env.headD []) m
    if k < c.bufWords then PortProg.runAmong c (rest (m'.word c k)) env.tail m' else .error k
  | .write k v rest, env, m =>
    let m' := otherWrites c (env.headD []) m
    if k < c.bufWords then PortProg.runAmong c rest env.tail (m'.setWord c k v) else .error k

/-- Perform a command's port program on the state; RES is written only where the program gives it a value
(10_state.md R24). -/
def State.runPort (s : State) (p : PortProg s.cfg.wb) : Host.Outcome State Fault Refusal :=
  match p.run s.cfg s.buf with
  | .ok (m, r) => .next { s with buf := m, res := r.or s.res }
  | .error k => .refused (.noSuchWord k)

/-! ### RES and FAULT -/

/-- `RES <- v`, all 64 bits (10_state.md R24). -/
def State.writeRes (s : State) (v : Word64) : State := { s with res := some v }

/-- `raise Fault(f)`: set FAULT, write nothing else (00_scope.md R17, 60_exceptions.md R147). -/
def State.raise (s : State) (f : Fault) : State := { s with fault := some f }

/-- "When FAULT is set, no agent has a further step" (60_exceptions.md R150). -/
def ifRunning (s : State) (k : Host.Outcome State Fault Refusal) : Host.Outcome State Fault Refusal :=
  match s.fault with
  | some f => .fault f
  | none => k

/-- Go on unless the check found a fault; the first fault found is the one raised (60_exceptions.md R147). -/
def unlessFault (s : State) (chk : Option Fault) (k : Host.Outcome State Fault Refusal) :
    Host.Outcome State Fault Refusal :=
  match chk with
  | some f => .next (s.raise f)
  | none => k

end Sys2Proof.Machine
end

