-- ==== Sys2Proof/Machine/Operands.lean ====
section
/-! DEFINITION. The derivation functions of 40_codec.md section 1: shifts, masks, the place of an element, and the
truncated value. `wb` is WORD_BITS. -/

namespace Sys2Proof.Machine

/-- `shl(x, s) = (x * 2^s) mod 2^WORD_BITS`, defined for 0 ≤ s ≤ WORD_BITS - 1 (00_scope.md R15). -/
def shl {wb : Nat} (x : BitVec wb) (s : Nat) : BitVec wb :=
  if s < wb then x <<< s else Config.shlOutOfRange wb x s

/-- `shr(x, s) = x div 2^s`, defined for 0 ≤ s ≤ WORD_BITS - 1 (00_scope.md R15). -/
def shr {wb : Nat} (x : BitVec wb) (s : Nat) : BitVec wb :=
  if s < wb then x >>> s else Config.shrOutOfRange wb x s

/-- ONES (00_scope.md R14). -/
def ones (wb : Nat) : BitVec wb := BitVec.allOnes wb

/-- `Mask(w) = ~ shl( shl(ONES, w - 1), 1 )` (40_codec.md R81). -/
def mask (wb w : Nat) : BitVec wb := ~~~ shl (shl (ones wb) (w - 1)) 1

/-- `LowMask(s) = ~ shl(ONES, s)` (40_codec.md R82). -/
def lowMask (wb s : Nat) : BitVec wb := ~~~ shl (ones wb) s

/-- `HighMask(da, w) = shl( shl(ONES, da + w - 1), 1 )` (40_codec.md R83). -/
def highMask (wb da w : Nat) : BitVec wb := shl (shl (ones wb) (da + w - 1)) 1

/-- The place of an element (40_codec.md R80). -/
structure Place where
  /-- Bit offset. -/
  j : Nat
  /-- Left word index. -/
  a : Nat
  /-- Right word index. -/
  b : Nat
  /-- Intra-word start. -/
  da : Nat
  deriving DecidableEq, Repr

/-- Locate, in exact arithmetic (40_codec.md R80). -/
def locate (wb w i : Nat) : Place :=
  { j := i * w, a := i * w / wb, b := (i * w + w - 1) / wb, da := i * w % wb }

/-- `r = da + w - WB`: how many bits of a straddling element lie in word b (40_codec.md R84). -/
def splitBits (wb w da : Nat) : Nat := da + w - wb

/-- `zext_WB(VAL[w-1:0])`: the low w bits of VAL (40_codec.md R103). -/
def truncateTo (wb w : Nat) (v : Word64) : BitVec wb := BitVec.ofNat wb (v.toNat % 2 ^ w)

/-- `zext_64` of a word (00_scope.md R13). -/
def zext64 {wb : Nat} (x : BitVec wb) : Word64 := x.setWidth 64

end Sys2Proof.Machine
end

