-- ==== Sys2Proof/Machine/Flags.lean ====
section
/-! DEFINITION. The core has no flags and no status register (10_state.md R28). What stands in their place are the
checks that decide FAULT: each answers the fault a command raises, or none (60_exceptions.md R140 to R147). -/

namespace Sys2Proof.Machine

/-- The number the spec gives each reason (60_exceptions.md R140). -/
def faultCode : Fault → Nat
  | .fOpcode => 1
  | .fReserved => 2
  | .fWidth => 3
  | .fIndex => 4
  | .fWselRange => 5
  | .fResUnwritten => 6

/-- The fault a rejected command word raises (30_encoding.md R69, 60_exceptions.md R141, R142). -/
def rejectFault : DecodeReject → Fault
  | .opcode => .fOpcode
  | .reservedBits => .fReserved
  | .wselWidth => .fReserved

/-- The width range 1..WORD_BITS, inclusive (00_scope.md R10), which PACKS checks (60_exceptions.md R143). -/
def checkWidthRange (c : Config) (w : Nat) : Option Fault :=
  if w < 1 ∨ w > c.wb then some .fWidth else none

/-- `check_width` of GET and SET: the range, then FIXED_W (60_exceptions.md R143). -/
def checkWidth (c : Config) (w : Nat) : Option Fault :=
  (checkWidthRange c w).or
    (match c.fixedW with
      | none => none
      | some f => if w ≠ f then some .fWidth else none)

/-- `check_index` of GET and SET, in exact arithmetic (60_exceptions.md R144). -/
def checkIndex (c : Config) (w i : Nat) : Option Fault :=
  if (i + 1) * w > c.bufWords * c.wb then some .fIndex else none

/-- The preconditions common to GET and SET, in order (40_codec.md R100). -/
def checkCodec (c : Config) (w i : Nat) : Option Fault :=
  (checkWidth c w).or (checkIndex c w i)

/-- The range check of WSEL (60_exceptions.md R145). -/
def checkWsel (n : Nat) : Option Fault :=
  if n > 64 then some .fWselRange else none

end Sys2Proof.Machine
end

