-- ==== Sys2Proof/Machine/Codec.lean ====
section
/-! DEFINITION. The codec commands GET and SET (40_codec.md), each as its accesses at the memory port in the order
its rule lists them, behind the checks of R100. -/

namespace Sys2Proof.Machine

/-- The single-bit path of GET (40_codec.md R102). -/
def getBitPort (wb i : Nat) : PortProg wb :=
  .read (i / wb) fun wk => .done (some (zext64 (shr wk (i % wb) &&& 1)))

/-- The general path of GET, infix and split (40_codec.md R101). -/
def getGeneralPort (wb w i : Nat) : PortProg wb :=
  let l := locate wb w i
  .read l.a fun wa =>
    let lo := shr wa l.da
    if l.a = l.b then .done (some (zext64 (lo &&& mask wb w)))
    else .read l.b fun xb =>
      let hi := shl xb (wb - l.da)
      .done (some (zext64 ((lo ||| hi) &&& mask wb w)))

/-- GET after its checks: width 1 takes the single-bit path (40_codec.md R88, R101). The paths are separate programs
that agree at w = 1 (R111: `getPort_bits`, `Obligations.SingleBitAndGeneralPathsAgree`). -/
def getPort (wb w i : Nat) : PortProg wb :=
  if w = 1 then getBitPort wb i else getGeneralPort wb w i

/-- GET (40_codec.md R101). It reads exactly the element's bits, R110(b): `getPort_bits`,
`Obligations.GetReturnsTheElement`. -/
def execGet (w i : Nat) (s : State) : Host.Outcome State Fault Refusal :=
  ifRunning s <| unlessFault s (checkCodec s.cfg w i) <| s.runPort (getPort s.cfg.wb w i)

/-- The single-bit path of SET: bit 0 of VAL, not `VAL ≠ 0` (40_codec.md R108, 90_conflicts.md C1). -/
def setBitPort (wb i : Nat) (v : Word64) : PortProg wb :=
  let k := i / wb
  let s := i % wb
  let bit : BitVec wb := truncateTo wb 1 v
  .read k fun wk => .write k ((wk &&& ~~~ shl 1 s) ||| shl bit s) (.done none)

/-- The word an infix SET writes over `wa` (40_codec.md R104). -/
def infixWord {wb : Nat} (w da : Nat) (x wa : BitVec wb) : BitVec wb :=
  (wa &&& (lowMask wb da ||| highMask wb da w)) ||| shl x da

/-- The word a split SET writes over word a (40_codec.md R106). -/
def splitLeftWord {wb : Nat} (da : Nat) (x wa : BitVec wb) : BitVec wb :=
  (wa &&& lowMask wb da) ||| shl x da

/-- The word a split SET writes over word b (40_codec.md R106, 90_conflicts.md C2). -/
def splitRightWord {wb : Nat} (w da : Nat) (x xb : BitVec wb) : BitVec wb :=
  (xb &&& ~~~ lowMask wb (splitBits wb w da)) ||| shr x (wb - da)

/-- The general path of SET: infix (40_codec.md R104), else SetSplit (R106), which reads and writes word a before
it reads word b. -/
def setGeneralPort (wb w i : Nat) (v : Word64) : PortProg wb :=
  let x := truncateTo wb w v
  let l := locate wb w i
  if l.a = l.b then
    .read l.a fun wa => .write l.a (infixWord w l.da x wa) (.done none)
  else
    .read l.a fun wa => .write l.a (splitLeftWord l.da x wa) <|
      .read l.b fun xb => .write l.b (splitRightWord w l.da x xb) (.done none)

/-- SET after its checks: width 1 takes the single-bit path (40_codec.md R88, R104). The paths are separate programs
that write the same word at w = 1 (R111: `setBitWord_eq`, `Obligations.SingleBitAndGeneralPathsAgree`). -/
def setPort (wb w i : Nat) (v : Word64) : PortProg wb :=
  if w = 1 then setBitPort wb i v else setGeneralPort wb w i v

/-- SET (40_codec.md R104). It writes exactly the element's bits, truncated, R110(a), (c), (d), (e): `setMemory_bit`,
`Obligations.SetWritesTheElement`, `Obligations.RoundTrip`, `Obligations.SetIsIndependentOfOtherElements`. -/
def execSet (w i : Nat) (v : Word64) (s : State) : Host.Outcome State Fault Refusal :=
  ifRunning s <| unlessFault s (checkCodec s.cfg w i) <| s.runPort (setPort s.cfg.wb w i v)

end Sys2Proof.Machine
end

