-- ==== Sys2Proof/Machine/Sizing.lean ====
section
/-! DEFINITION. The sizing commands PACKS and WSEL (41_sizing.md): they make no memory access. -/

namespace Sys2Proof.Machine

/-- `PacksRequired(N, w) = (N * w + WB - 1) div WB` (41_sizing.md R120). -/
def packsRequired (wb n w : Nat) : Nat := (n * w + wb - 1) / wb

/-- PACKS (41_sizing.md R121): FIXED_W does not constrain it. -/
def execPacks (w n : Nat) (s : State) : Host.Outcome State Fault Refusal :=
  ifRunning s <| unlessFault s (checkWidthRange s.cfg w) <|
    .next (s.writeRes (BitVec.ofNat 64 (packsRequired s.cfg.wb n w)))

/-- WidthSelect, for 0 ≤ n ≤ 64 (41_sizing.md R125, R127). -/
def widthSelect (n : Nat) : Nat :=
  if n ≤ 8 then 8 else if n ≤ 16 then 16 else if n ≤ 32 then 32 else 64

/-- WSEL (41_sizing.md R126). -/
def execWsel (n : Nat) (s : State) : Host.Outcome State Fault Refusal :=
  ifRunning s <| unlessFault s (checkWsel n) <|
    .next (s.writeRes (BitVec.ofNat 64 (widthSelect n)))

end Sys2Proof.Machine
end

