-- ==== Sys2Proof/Machine/Dispatch.lean ====
section
/-! DEFINITION. One arm per command (spec/opcode_table.json). -/

namespace Sys2Proof.Machine

def exec (i : Instr) (s : State) : Host.Outcome State Fault Refusal :=
  match i with
  | .get w n => Sys2Proof.Machine.execGet w n s
  | .set w n v => Sys2Proof.Machine.execSet w n v s
  | .packs w n => Sys2Proof.Machine.execPacks w n s
  | .wsel n => Sys2Proof.Machine.execWsel n s

end Sys2Proof.Machine
end

