-- ==== Sys2Proof/Machine/HostActions.lean ====
section
/-! DEFINITION. What each HOST action does (10_state.md R33, 30_encoding.md R74), and the issue of a command:
decode, then the command's meaning. -/

namespace Sys2Proof.Machine

/-- `HOST.READ RES`: the value, or F_RES_UNWRITTEN while RES holds none (10_state.md R24,
60_exceptions.md R146, 93_implementation_defined.md U27). -/
def hostReadRes (s : State) : Host.Outcome State Fault Refusal :=
  ifRunning s <|
    match s.res with
    | some v => .next { s with reads := v :: s.reads }
    | none => .next (s.raise .fResUnwritten)

/-- `HOST.READ BUF[k]` (10_state.md R33). -/
def hostReadBuf (k : Nat) (s : State) : Host.Outcome State Fault Refusal :=
  ifRunning s <|
    if k < s.cfg.bufWords then .next { s with reads := zext64 (s.word k) :: s.reads }
    else .refused (.noSuchWord k)

/-- `HOST.WRITE BUF[k], v`, for a WORD_BITS-bit value (10_state.md R33). -/
def hostWriteBuf (k : Nat) (v : Word64) (s : State) : Host.Outcome State Fault Refusal :=
  ifRunning s <|
    if k < s.cfg.bufWords then
      if v.toNat < 2 ^ s.cfg.wb then
        .next { s with buf := s.buf.setWord s.cfg k (v.setWidth s.cfg.wb) }
      else .refused (.valueTooWide v)
    else .refused (.noSuchWord k)

/-- `RESET`: RES holds no value, every BUF word and every parameter stays (70_reset_and_hazards.md R170). -/
def hostReset (s : State) : Host.Outcome State Fault Refusal :=
  ifRunning s <| .next { s with res := none }

/-- CORE takes one command: decode in the order of 30_encoding.md R69, then perform it (10_state.md R20). -/
def issueCommand (c : Command) (s : State) : Host.Outcome State Fault Refusal :=
  ifRunning s <|
    match decode c with
    | .error r => .next (s.raise (rejectFault r))
    | .ok i => exec i s

/-- One HOST action. -/
def perform (a : HostAction) (s : State) : Host.Outcome State Fault Refusal :=
  match a with
  | .issue c => issueCommand c s
  | .readRes => hostReadRes s
  | .readBuf k => hostReadBuf k s
  | .writeBuf k v => hostWriteBuf k v s
  | .reset => hostReset s

end Sys2Proof.Machine
end

