-- ==== Sys2Proof/Machine/Step.lean ====
section
/-! DEFINITION. One step: the HOST's next action, taken whole (10_state.md R20, R21, 20_memory.md R50). -/

namespace Sys2Proof.Machine

/-- A state with FAULT set has no further step (60_exceptions.md R150). With no action pending the block waits for
HOST (70_reset_and_hazards.md R172) and the state stays. -/
def step (s : State) : Host.Outcome State Fault Refusal :=
  ifRunning s <|
    match s.pending with
    | [] => .next s
    | a :: rest => perform a { s with pending := rest }

/-- HOST issues, as its very next action, the command whose bits are `w` (log entries 5 and 12). -/
def State.withFetchWord (s : State) (nbits w : Nat) : State :=
  { s with pending := .issue (Command.ofBits nbits w) :: s.pending }

end Sys2Proof.Machine
end

