-- ==== Sys2Proof/Safety.lean ====
section
/-! DEFINITION. What counts as a safe run: "a claim about a command sequence takes FAULT = none at its end as a
premise" (60_exceptions.md R150); and when a codec command executes rather than raising a fault. -/

namespace Sys2Proof.Machine

/-- `n` steps from `s` end in `t` with FAULT none. -/
def SafeRun (n : Nat) (s t : State) : Prop :=
  Sys2Proof.core.run n s = .next t ∧ t.fault = none

/-- The preconditions of GET and SET, in the spec's own arithmetic: the width range, FIXED_W (60_exceptions.md
R143) and the index bound (R144). -/
def CodecAccepts (c : Config) (w i : Nat) : Prop :=
  1 ≤ w ∧ w ≤ c.wb ∧ (∀ f, c.fixedW = some f → w = f) ∧ (i + 1) * w ≤ c.bufWords * c.wb

/-- The order of 60_exceptions.md R147, read off the numbers of a command's fields: the first fault that applies,
or none. -/
def firstFault (c : Config) (op w rsv idx : Nat) : Option Fault :=
  if op = 0 ∨ 5 ≤ op then some .fOpcode
  else if rsv ≠ 0 then some .fReserved
  else if op = 4 ∧ w ≠ 0 then some .fReserved
  else if op ≠ 4 ∧ (w < 1 ∨ c.wb < w) then some .fWidth
  else if (op = 1 ∨ op = 2) ∧ c.fixedW.getD w ≠ w then some .fWidth
  else if (op = 1 ∨ op = 2) ∧ c.bufWords * c.wb < (idx + 1) * w then some .fIndex
  else if op = 4 ∧ 64 < idx then some .fWselRange
  else none

/-- The same machine on an instance of the other HOST_BYTE_ORDER, its buffer held as `m`. -/
def State.onByteOrder (s : State) (o : ByteOrder) (m : Memory) : State :=
  { s with cfg := { s.cfg with byteOrder := o }, buf := m }

end Sys2Proof.Machine
end

