-- ==== Sys2Proof/Certificates/Slice0/Obligations.lean ====
section
/-! DEFINITION. The statements for the provers. -/

open Sys2Proof Sys2Proof.Machine

/-! ### Encoding and decode -/

/-- The examples of 30_encoding.md R75, read both ways. -/
def Obligations.EncodingExamples : Prop :=
  (encode (.get 13 5) = ⟨0x00D1, 5, 0⟩ ∧ decode ⟨0x00D1, 5, 0⟩ = .ok (.get 13 5)) ∧
  (encode (.set 64 0 0xFEDCBA9876543210) = ⟨0x0402, 0, 0xFEDCBA9876543210⟩ ∧
    decode ⟨0x0402, 0, 0xFEDCBA9876543210⟩ = .ok (.set 64 0 0xFEDCBA9876543210)) ∧
  (encode (.packs 1 1000001) = ⟨0x0013, 1000001, 0⟩ ∧ decode ⟨0x0013, 1000001, 0⟩ = .ok (.packs 1 1000001)) ∧
  (encode (.wsel 13) = ⟨0x0004, 13, 0⟩ ∧ decode ⟨0x0004, 13, 0⟩ = .ok (.wsel 13)) ∧
  (∀ x v : Word64, decode ⟨0x0000, x, v⟩ = .error .opcode ∧ rejectFault .opcode = .fOpcode)

/-- Decoding an encoded well-formed instruction gives it back: no operand bit is dropped. -/
def Obligations.DecodeEncode : Prop :=
  ∀ i : Instr, i.wellFormed = true → decode (encode i) = .ok i

/-- Whatever decodes is well formed, and encodes to the command word and IDX it came from; SET carries VAL. -/
def Obligations.EncodeDecode : Prop :=
  ∀ (c : Command) (i : Instr), decode c = .ok i →
    i.wellFormed = true ∧ (encode i).cmd = c.cmd ∧ (encode i).idx = c.idx ∧
      (∀ w n v, i = .set w n v → v = c.val)

/-- The match and mask columns of the opcode map (30_encoding.md R66), and that every other word faults. -/
def Obligations.OpcodeMapByMatchAndMask : Prop :=
  ∀ c : Command,
    ((∃ w i, decode c = .ok (.get w i)) ↔ c.cmd &&& 0xF80F = 0x0001) ∧
    ((∃ w i v, decode c = .ok (.set w i v)) ↔ c.cmd &&& 0xF80F = 0x0002) ∧
    ((∃ w n, decode c = .ok (.packs w n)) ↔ c.cmd &&& 0xF80F = 0x0003) ∧
    ((∃ n, decode c = .ok (.wsel n)) ↔ c.cmd = 0x0004) ∧
    (c.cmd &&& 0xF80F ≠ 0x0001 → c.cmd &&& 0xF80F ≠ 0x0002 → c.cmd &&& 0xF80F ≠ 0x0003 → c.cmd ≠ 0x0004 →
      ∀ (s : State) (rest : List HostAction), s.fault = none → s.pending = .issue c :: rest →
        ∃ t, step s = .next t ∧ (t.fault = some .fOpcode ∨ t.fault = some .fReserved))

/-- 60_exceptions.md R141. -/
def Obligations.ReservedOpcodeFaults : Prop :=
  ∀ (s : State) (c : Command) (rest : List HostAction), s.fault = none → s.pending = .issue c :: rest →
    (c.cmd.toNat % 16 = 0 ∨ 5 ≤ c.cmd.toNat % 16) →
    step s = .next { s with pending := rest, fault := some .fOpcode }

/-- 60_exceptions.md R142. -/
def Obligations.ReservedFieldFaults : Prop :=
  ∀ (s : State) (c : Command) (rest : List HostAction), s.fault = none → s.pending = .issue c :: rest →
    1 ≤ c.cmd.toNat % 16 → c.cmd.toNat % 16 ≤ 4 →
    (c.cmd.toNat / 2 ^ 11 ≠ 0 ∨ (c.cmd.toNat % 16 = 4 ∧ c.cmd.toNat / 16 % 128 ≠ 0)) →
    step s = .next { s with pending := rest, fault := some .fReserved }

/-- 30_encoding.md R64: VAL is read by SET only, and SET keeps its low W bits. -/
def Obligations.ValReadBySetOnly : Prop :=
  (∀ (s : State) (c : Command) (v : Word64) (rest : List HostAction), c.cmd.toNat % 16 ≠ 2 →
    step { s with pending := .issue { c with val := v } :: rest } = step { s with pending := .issue c :: rest }) ∧
  (∀ (s : State) (c : Command) (v : Word64) (rest : List HostAction), c.cmd.toNat % 16 = 2 →
    (∀ p, p < c.cmd.toNat / 16 % 128 → v.getLsbD p = c.val.getLsbD p) →
    step { s with pending := .issue { c with val := v } :: rest } = step { s with pending := .issue c :: rest })

/-! ### Faults -/

/-- 60_exceptions.md R143. -/
def Obligations.WidthCheck : Prop :=
  ∀ s : State, s.fault = none →
    (∀ (w i : Nat) (v : Word64),
      (w < 1 ∨ s.cfg.wb < w ∨ ∃ f, s.cfg.fixedW = some f ∧ w ≠ f) →
      exec (.get w i) s = .next { s with fault := some .fWidth } ∧
      exec (.set w i v) s = .next { s with fault := some .fWidth }) ∧
    (∀ w n : Nat, (w < 1 ∨ s.cfg.wb < w) → exec (.packs w n) s = .next { s with fault := some .fWidth }) ∧
    (∀ w n : Nat, 1 ≤ w → w ≤ s.cfg.wb → ∃ t, exec (.packs w n) s = .next t ∧ t.fault = none)

/-- 60_exceptions.md R144. -/
def Obligations.IndexCheck : Prop :=
  ∀ (s : State) (w i : Nat) (v : Word64), s.fault = none → 1 ≤ w → w ≤ s.cfg.wb →
    (∀ f, s.cfg.fixedW = some f → w = f) →
    (s.cfg.bufWords * s.cfg.wb < (i + 1) * w ∨ s.cfg.bufWords = 0 →
      exec (.get w i) s = .next { s with fault := some .fIndex } ∧
      exec (.set w i v) s = .next { s with fault := some .fIndex }) ∧
    ((i + 1) * w ≤ s.cfg.bufWords * s.cfg.wb →
      ∃ t u, exec (.get w i) s = .next t ∧ t.fault = none ∧ exec (.set w i v) s = .next u ∧ u.fault = none)

/-- 60_exceptions.md R145. -/
def Obligations.WselRangeFaults : Prop :=
  ∀ (s : State) (n : Nat), s.fault = none → 64 < n →
    exec (.wsel n) s = .next { s with fault := some .fWselRange }

/-- 60_exceptions.md R146. -/
def Obligations.UnwrittenResReadFaults : Prop :=
  ∀ (s : State) (rest : List HostAction), s.fault = none → s.res = none → s.pending = .readRes :: rest →
    step s = .next { s with pending := rest, fault := some .fResUnwritten }

/-- 60_exceptions.md R147: which fault a command raises, read off its fields, and that it changes nothing else. -/
def Obligations.FaultPriority : Prop :=
  ∀ (s : State) (c : Command) (rest : List HostAction), s.fault = none → s.pending = .issue c :: rest →
    let expected := firstFault s.cfg (c.cmd.toNat % 16) (c.cmd.toNat / 16 % 128) (c.cmd.toNat / 2 ^ 11) c.idx.toNat
    ∃ t, step s = .next t ∧ t.fault = expected ∧
      (expected ≠ none → t = { s with pending := rest, fault := expected })

/-- 60_exceptions.md R150. -/
def Obligations.FaultedStateIsQuiescent : Prop :=
  ∀ (s : State) (f : Fault), s.fault = some f →
    step s = .fault f ∧ (∀ i, exec i s = .fault f) ∧ (∀ a, perform a s = .fault f)

/-! ### State, reset and HOST -/

/-- What the spec gives the state after reset (10_state.md R32). The parameters and the empty buffer list of
`State.reset` are the model's choice (log entries 1 and 3) and are not stated. -/
def Obligations.ResetState : Prop :=
  State.reset.res = none ∧ State.reset.fault = none

/-- 70_reset_and_hazards.md R170. -/
def Obligations.ResetAction : Prop :=
  ∀ (s : State) (rest : List HostAction), s.fault = none → s.pending = .reset :: rest →
    step s = .next { s with pending := rest, res := none }

/-- Every buffer content is the content of some launch state (20_memory.md R46, 70_reset_and_hazards.md R171): a
statement about every state is one about every power-up content. -/
def Obligations.EveryPowerUpContentIsAState : Prop :=
  ∀ c : Config, c.wf = true → ∀ f : Nat → BitVec c.wb,
    ∃ m : Memory, (State.powerUp c m).wf = true ∧ (State.powerUp c m).res = none ∧
      (State.powerUp c m).fault = none ∧ ∀ k, k < c.bufWords → m.word c k = f k

/-- Which bits of a word each byte of the HOST byte view holds (20_memory.md R43). -/
def Obligations.HostByteView : Prop :=
  ∀ (c : Config) (m : Memory) (k b p : Nat), b < c.wordBits.bytes → p < 8 →
    (m.readByte (k * c.wordBits.bytes + b)).getLsbD p =
      (m.word c k).getLsbD (match c.byteOrder with
        | .little => 8 * b + p
        | .big => c.wb - 8 - 8 * b + p)

/-- Under LITTLE byte n holds buffer bits 8n+7..8n whatever WORD_BITS is; under BIG it does not (20_memory.md R44). -/
def Obligations.LittleByteOrderIsWidthFree : Prop :=
  (∀ (c : Config) (m : Memory) (n p : Nat), c.byteOrder = .little → p < 8 →
    (m.readByte n).getLsbD p = m.bit c (8 * n + p)) ∧
  (∃ (c : Config) (m : Memory) (n p : Nat), c.byteOrder = .big ∧ p < 8 ∧ n < byteSize c ∧
    (m.readByte n).getLsbD p ≠ m.bit c (8 * n + p))

/-- No command's result depends on HOST_BYTE_ORDER (20_memory.md R43, R44): two instances that differ in it, with
the same buffer bits, stay alike. -/
def Obligations.ByteOrderIsInvisibleToCommands : Prop :=
  ∀ (s t : State) (o : ByteOrder) (m : Memory) (i : Instr), s.wf = true → (s.onByteOrder o m).wf = true →
    (∀ p, p < s.cfg.bufWords * s.cfg.wb → (s.onByteOrder o m).bufBit p = s.bufBit p) →
    exec i s = .next t →
    ∃ m' : Memory, exec i (s.onByteOrder o m) = .next (t.onByteOrder o m') ∧
      ∀ p, p < s.cfg.bufWords * s.cfg.wb → (t.onByteOrder o m').bufBit p = t.bufBit p

/-- HOST's own reads and writes of BUF and its reads of RES (10_state.md R33). That a word outside BUF is refused
is the model's choice (log entry 8). -/
def Obligations.HostAccesses : Prop :=
  ∀ (s : State) (rest : List HostAction), s.fault = none →
    (∀ v, s.res = some v → s.pending = .readRes :: rest →
      step s = .next { s with pending := rest, reads := v :: s.reads }) ∧
    (∀ k, k < s.cfg.bufWords → s.pending = .readBuf k :: rest →
      step s = .next { s with pending := rest, reads := (s.word k).setWidth 64 :: s.reads }) ∧
    (∀ k v, k < s.cfg.bufWords → v.toNat < 2 ^ s.cfg.wb → s.wf = true → s.pending = .writeBuf k v :: rest →
      ∃ m : Memory, step s = .next { s with pending := rest, buf := m } ∧ (m.word s.cfg k).toNat = v.toNat ∧
        ∀ k', k' ≠ k → m.word s.cfg k' = s.word k') ∧
    (∀ k v, s.cfg.bufWords ≤ k → (s.pending = .readBuf k :: rest ∨ s.pending = .writeBuf k v :: rest) →
      step s = .refused (.noSuchWord k))

/-- With no HOST action pending the block waits (70_reset_and_hazards.md R172). -/
def Obligations.BlockWaitsForHost : Prop :=
  ∀ s : State, s.fault = none → s.pending = [] → step s = .next s

/-- A step that takes a command runs the decoded instruction. -/
def Obligations.StepRunsDecodedCommand : Prop :=
  ∀ (s : State) (c : Command) (i : Instr) (rest : List HostAction), s.fault = none →
    s.pending = .issue c :: rest → decode c = .ok i →
    i.wellFormed = true ∧ step s = exec i { s with pending := rest }

/-- What no command but SET changes: any byte of BUF; and what none changes at all. -/
def Obligations.GetAndSizingFrame : Prop :=
  ∀ (i : Instr) (s t : State), (∀ w n v, i ≠ .set w n v) → exec i s = .next t →
    t.cfg = s.cfg ∧ t.pending = s.pending ∧ t.reads = s.reads ∧
    (∀ n, t.buf.readByte n = s.buf.readByte n) ∧ (∀ k, t.buf.word s.cfg k = s.word k) ∧
    (t.fault = s.fault ∨ t.res = s.res)

/-- What SET leaves: RES, every byte outside the words it locates, and the rest of the state. A SET that raises a
fault leaves every byte. -/
def Obligations.SetFrame : Prop :=
  ∀ (w i : Nat) (v : Word64) (s t : State), s.wf = true → exec (.set w i v) s = .next t →
    t.cfg = s.cfg ∧ t.pending = s.pending ∧ t.reads = s.reads ∧ t.res = s.res ∧
    (∀ n, n / s.cfg.wordBits.bytes ≠ (locate s.cfg.wb w i).a → n / s.cfg.wordBits.bytes ≠ (locate s.cfg.wb w i).b →
      t.buf.readByte n = s.buf.readByte n) ∧
    (t.fault = s.fault ∨ t.buf = s.buf)

/-- Neither GET nor SET reads RES (40_codec.md R109): what it held before changes nothing else. -/
def Obligations.CodecDoesNotReadRes : Prop :=
  ∀ (w i : Nat) (v : Word64) (r : Option Word64) (s t : State),
    (exec (.get w i) s = .next t → t.fault = none → exec (.get w i) { s with res := r } = .next t) ∧
    (exec (.set w i v) s = .next t → exec (.set w i v) { s with res := r } = .next { t with res := r })

/-- No step writes the parameters (10_state.md R30). -/
def Obligations.ParametersAreFixed : Prop :=
  ∀ s t : State, step s = .next t → t.cfg = s.cfg

/-- Every step keeps the parameters legal and the buffer canonical and inside BUF, from every state that has it. -/
def Obligations.StepKeepsWf : Prop :=
  ∀ s t : State, s.wf = true → step s = .next t → t.wf = true

/-- Reset has the invariant of `StepKeepsWf`. -/
def Obligations.ResetIsWf : Prop :=
  State.reset.wf = true

/-- Who writes RES (10_state.md R24): GET, PACKS and WSEL when they complete; SET never; only RESET takes its
value away. -/
def Obligations.ResIsWrittenBy : Prop :=
  (∀ (i : Instr) (s t : State), exec i s = .next t → t.fault = none →
    ((∀ w n v, i ≠ .set w n v) → t.res ≠ none) ∧ ((∃ w n v, i = .set w n v) → t.res = s.res)) ∧
  (∀ s t : State, step s = .next t → s.res ≠ none → (∀ rest, s.pending ≠ .reset :: rest) → t.res ≠ none) ∧
  (∀ s t : State, step s = .next t → (∀ c rest, s.pending ≠ .issue c :: rest) →
    (∀ rest, s.pending ≠ .reset :: rest) → t.res = s.res)

/-- No rule depends on LATENCY or on the debug checker (70_reset_and_hazards.md R185, 60_exceptions.md R158). -/
def Obligations.LatencyAndDebugCheckerAreInert : Prop :=
  ∀ (s : State) (n : Nat) (d : Bool),
    step { s with cfg := { s.cfg with latency := n, debugChecker := d } } =
      match step s with
      | .next t => .next { t with cfg := { t.cfg with latency := n, debugChecker := d } }
      | .fault f => .fault f
      | .refused r => .refused r

/-! ### Derivation functions -/

/-- 40_codec.md R81. -/
def Obligations.MaskValue : Prop :=
  ∀ (c : Config) (w : Nat), 1 ≤ w → w ≤ c.wb →
    (mask c.wb w).toNat = 2 ^ w - 1 ∧ mask c.wb w = ~~~ shl (shl (ones c.wb) (w - 1)) 1 ∧
    w - 1 < c.wb ∧ 1 < c.wb ∧
    shl (ones c.wb) (c.wb - 1) = BitVec.twoPow c.wb (c.wb - 1) ∧ shl (shl (ones c.wb) (c.wb - 1)) 1 = 0 ∧
    mask c.wb c.wb = ones c.wb

/-- 40_codec.md R82. -/
def Obligations.LowMaskValue : Prop :=
  ∀ (c : Config) (s : Nat), s < c.wb →
    (lowMask c.wb s).toNat = 2 ^ s - 1 ∧ lowMask c.wb s = ~~~ shl (ones c.wb) s ∧ lowMask c.wb 0 = 0

/-- 40_codec.md R83. -/
def Obligations.HighMaskValue : Prop :=
  ∀ (c : Config) (da w : Nat), 1 ≤ w → da + w ≤ c.wb →
    (highMask c.wb da w).toNat = (2 ^ c.wb - 1) - (2 ^ (da + w) - 1) ∧
    (da + w = c.wb → highMask c.wb da w = 0) ∧ da + w - 1 < c.wb

/-- 40_codec.md R85, clause by clause. -/
def Obligations.LocateFacts : Prop :=
  ∀ (c : Config) (w i : Nat), 1 ≤ w → w ≤ c.wb →
    let l := locate c.wb w i
    (l.b = l.a ∨ l.b = l.a + 1) ∧
    (l.a = l.b ↔ l.da + w ≤ c.wb) ∧
    (l.a ≠ l.b → (1 ≤ l.da ∧ l.da ≤ c.wb - 1) ∧ (1 ≤ c.wb - l.da ∧ c.wb - l.da ≤ c.wb - 1) ∧
      (1 ≤ l.da + w - c.wb ∧ l.da + w - c.wb ≤ w - 1)) ∧
    ((i + 1) * w ≤ c.bufWords * c.wb → l.b < c.bufWords) ∧
    (w = 1 → l.a = i / c.wb ∧ l.b = i / c.wb ∧ l.da = i % c.wb)

/-- 40_codec.md R86. -/
def Obligations.AlignedWidthsNeverStraddle : Prop :=
  (∀ (c : Config) (w i : Nat), 1 ≤ w → c.wb % w = 0 → (locate c.wb w i).a = (locate c.wb w i).b) ∧
  (∀ w : Nat, 1 ≤ w → w ≤ 64 → (64 % w = 0 ↔ w ∈ [1, 2, 4, 8, 16, 32, 64])) ∧
  (∀ (c : Config) (w : Nat), 1 ≤ w → w ≤ c.wb → ∃ i, (locate c.wb w i).a = (locate c.wb w i).b)

/-- 40_codec.md R87. -/
def Obligations.FullWordWidth : Prop :=
  ∀ (s : State) (i : Nat) (v : Word64), s.fault = none → CodecAccepts s.cfg s.cfg.wb i →
    locate s.cfg.wb s.cfg.wb i = { j := i * s.cfg.wb, a := i, b := i, da := 0 } ∧
    mask s.cfg.wb s.cfg.wb = ones s.cfg.wb ∧ lowMask s.cfg.wb 0 = 0 ∧ highMask s.cfg.wb 0 s.cfg.wb = 0 ∧
    exec (.get s.cfg.wb i) s = .next { s with res := some ((s.word i).setWidth 64) } ∧
    exec (.set s.cfg.wb i v) s = .next { s with buf := s.buf.setWord s.cfg i (v.setWidth s.cfg.wb) }

/-- Every shift amount of 40_codec.md R89 lies in the range its row gives. -/
def Obligations.ShiftInventory : Prop :=
  ∀ (c : Config) (w i : Nat), 1 ≤ w → w ≤ c.wb →
    let l := locate c.wb w i
    w - 1 ≤ c.wb - 1 ∧ 1 ≤ c.wb - 1 ∧ l.da ≤ c.wb - 1 ∧ i % c.wb ≤ c.wb - 1 ∧
    (l.a = l.b → l.da + w - 1 ≤ c.wb - 1) ∧
    (l.a ≠ l.b → (1 ≤ splitBits c.wb w l.da ∧ splitBits c.wb w l.da ≤ c.wb - 2) ∧
      (1 ≤ c.wb - l.da ∧ c.wb - l.da ≤ c.wb - 1))

/-- 40_codec.md R113: 64-bit wrapping arithmetic gives the exact place of every element that passes the index
check of a buffer of at most 2^64 bits. -/
def Obligations.WrappingArithmeticAgrees : Prop :=
  ∀ (c : Config) (w i : Nat), c.bufWords * c.wb ≤ 2 ^ 64 → CodecAccepts c w i →
    let j : Word64 := BitVec.ofNat 64 i * BitVec.ofNat 64 w
    let wb : Word64 := BitVec.ofNat 64 c.wb
    i * w + w ≤ 2 ^ 64 ∧ j.toNat = (locate c.wb w i).j ∧ (j / wb).toNat = (locate c.wb w i).a ∧
    ((j + BitVec.ofNat 64 w - 1) / wb).toNat = (locate c.wb w i).b ∧ (j % wb).toNat = (locate c.wb w i).da

/-! ### GET and SET -/

/-- GET completes and returns `(B div 2^(i*w)) mod 2^w` for the buffer value B (40_codec.md R110(b), R101,
20_memory.md R41). -/
def Obligations.GetReturnsTheElement : Prop :=
  ∀ (s : State) (w i : Nat), s.fault = none → CodecAccepts s.cfg w i →
    exec (.get w i) s =
      .next { s with res := some (BitVec.ofNat 64 (s.bufValue / 2 ^ (i * w) % 2 ^ w)) }

/-- 40_codec.md R102. -/
def Obligations.GetSingleBit : Prop :=
  ∀ (s : State) (i : Nat), s.fault = none → CodecAccepts s.cfg 1 i →
    let v : Word64 := if (s.word (i / s.cfg.wb)).getLsbD (i % s.cfg.wb) then 1 else 0
    exec (.get 1 i) s = .next { s with res := some v } ∧
    (getPort s.cfg.wb 1 i).accesses s.cfg s.buf = [.read (i / s.cfg.wb) (s.word (i / s.cfg.wb))] ∧
    (getGeneralPort s.cfg.wb 1 i).run s.cfg s.buf = .ok (s.buf, some v)

/-- The word reads of GET on the general path, in order (40_codec.md R101). -/
def Obligations.GetGeneralAccesses : Prop :=
  ∀ (s : State) (w i : Nat), CodecAccepts s.cfg w i → w ≠ 1 →
    let l := locate s.cfg.wb w i
    (getPort s.cfg.wb w i).accesses s.cfg s.buf =
      if l.a = l.b then [.read l.a (s.word l.a)] else [.read l.a (s.word l.a), .read l.b (s.word l.b)]

/-- SET completes, writes VAL's low w bits into the element and keeps every other buffer bit, RES and the rest
(40_codec.md R110(a), R110(e), R103, R104). -/
def Obligations.SetWritesTheElement : Prop :=
  ∀ (s : State) (w i : Nat) (v : Word64), s.fault = none → s.wf = true → CodecAccepts s.cfg w i →
    ∃ m : Memory, exec (.set w i v) s = .next { s with buf := m } ∧
      ∀ p, m.bit s.cfg p = if i * w ≤ p ∧ p < i * w + w then v.getLsbD (p - i * w) else s.bufBit p

/-- 40_codec.md R105: the word an infix SET writes, bit by bit; its accesses are one read and one write of it. -/
def Obligations.InfixWriteBitByBit : Prop :=
  ∀ (s : State) (w i : Nat) (v : Word64), s.fault = none → s.wf = true → CodecAccepts s.cfg w i →
    (locate s.cfg.wb w i).a = (locate s.cfg.wb w i).b →
    ∃ m : Memory, exec (.set w i v) s = .next { s with buf := m } ∧
      (∀ p, p < s.cfg.wb → (m.word s.cfg (locate s.cfg.wb w i).a).getLsbD p =
        if (locate s.cfg.wb w i).da ≤ p ∧ p < (locate s.cfg.wb w i).da + w
        then v.getLsbD (p - (locate s.cfg.wb w i).da)
        else (s.word (locate s.cfg.wb w i).a).getLsbD p) ∧
      (∀ k, k ≠ (locate s.cfg.wb w i).a → m.word s.cfg k = s.word k) ∧
      (setPort s.cfg.wb w i v).accesses s.cfg s.buf =
        [.read (locate s.cfg.wb w i).a (s.word (locate s.cfg.wb w i).a),
         .write (locate s.cfg.wb w i).a (m.word s.cfg (locate s.cfg.wb w i).a)]

/-- 40_codec.md R106 and R107: the two words a split SET writes, bit by bit, every other word, and the order of the
four accesses. -/
def Obligations.SplitWriteBitByBit : Prop :=
  ∀ (s : State) (w i : Nat) (v : Word64), s.fault = none → s.wf = true → CodecAccepts s.cfg w i →
    (locate s.cfg.wb w i).a ≠ (locate s.cfg.wb w i).b →
    ∃ m : Memory, exec (.set w i v) s = .next { s with buf := m } ∧
      (∀ p, p < s.cfg.wb → (m.word s.cfg (locate s.cfg.wb w i).a).getLsbD p =
        if (locate s.cfg.wb w i).da ≤ p then v.getLsbD (p - (locate s.cfg.wb w i).da)
        else (s.word (locate s.cfg.wb w i).a).getLsbD p) ∧
      (∀ p, p < s.cfg.wb → (m.word s.cfg (locate s.cfg.wb w i).b).getLsbD p =
        if p < (locate s.cfg.wb w i).da + w - s.cfg.wb
        then v.getLsbD (s.cfg.wb - (locate s.cfg.wb w i).da + p)
        else (s.word (locate s.cfg.wb w i).b).getLsbD p) ∧
      (∀ k, k ≠ (locate s.cfg.wb w i).a → k ≠ (locate s.cfg.wb w i).b → m.word s.cfg k = s.word k) ∧
      (locate s.cfg.wb w i).b = (locate s.cfg.wb w i).a + 1 ∧
      (setPort s.cfg.wb w i v).accesses s.cfg s.buf =
        [.read (locate s.cfg.wb w i).a (s.word (locate s.cfg.wb w i).a),
         .write (locate s.cfg.wb w i).a (m.word s.cfg (locate s.cfg.wb w i).a),
         .read (locate s.cfg.wb w i).b (s.word (locate s.cfg.wb w i).b),
         .write (locate s.cfg.wb w i).b (m.word s.cfg (locate s.cfg.wb w i).b)]

/-- 40_codec.md R108. -/
def Obligations.SetSingleBit : Prop :=
  ∀ (s : State) (i : Nat) (v : Word64), s.fault = none → CodecAccepts s.cfg 1 i →
    let wk := s.word (i / s.cfg.wb)
    let bit : BitVec s.cfg.wb := if v.getLsbD 0 then 1 else 0
    let wk' := (wk &&& ~~~ ((1 : BitVec s.cfg.wb) <<< (i % s.cfg.wb))) ||| (bit <<< (i % s.cfg.wb))
    exec (.set 1 i v) s = .next { s with buf := s.buf.setWord s.cfg (i / s.cfg.wb) wk' } ∧
    (setPort s.cfg.wb 1 i v).accesses s.cfg s.buf =
      [.read (i / s.cfg.wb) wk, .write (i / s.cfg.wb) wk']

/-- Round trip (40_codec.md R110(c)). -/
def Obligations.RoundTrip : Prop :=
  ∀ (s t : State) (w i : Nat) (v : Word64), s.wf = true → CodecAccepts s.cfg w i →
    exec (.set w i v) s = .next t →
    exec (.get w i) t = .next { t with res := some (v &&& BitVec.ofNat 64 (2 ^ w - 1)) }

/-- Independence, across a word boundary too (40_codec.md R110(d)). -/
def Obligations.SetIsIndependentOfOtherElements : Prop :=
  ∀ (s t : State) (w i i' : Nat) (v : Word64), s.wf = true → CodecAccepts s.cfg w i → CodecAccepts s.cfg w i' →
    i' ≠ i → exec (.set w i v) s = .next t →
    ∃ x : Word64, exec (.get w i') s = .next { s with res := some x } ∧
      exec (.get w i') t = .next { t with res := some x }

/-- 40_codec.md R111: at w = 1 the single-bit and the general paths do the same. -/
def Obligations.SingleBitAndGeneralPathsAgree : Prop :=
  ∀ (c : Config) (i : Nat) (v : Word64) (m : Memory), i + 1 ≤ c.bufWords * c.wb →
    (getGeneralPort c.wb 1 i).run c m = (getBitPort c.wb i).run c m ∧
    (setGeneralPort c.wb 1 i v).run c m = (setBitPort c.wb i v).run c m ∧
    ∃ m' r, (getBitPort c.wb i).run c m = .ok (m, some r) ∧ (setBitPort c.wb i v).run c m = .ok (m', none)

/-- 40_codec.md R112: a compile-time-width instance gives what a runtime-width instance gives. -/
def Obligations.FixedWidthInstanceAgrees : Prop :=
  ∀ (s t : State) (w i : Nat) (v : Word64), s.cfg.fixedW = none →
    (exec (.get w i) s = .next t →
      exec (.get w i) { s with cfg := { s.cfg with fixedW := some w } } =
        .next { t with cfg := { s.cfg with fixedW := some w } }) ∧
    (exec (.set w i v) s = .next t →
      exec (.set w i v) { s with cfg := { s.cfg with fixedW := some w } } =
        .next { t with cfg := { s.cfg with fixedW := some w } })

/-! ### PACKS and WSEL -/

/-- 41_sizing.md R120 and R122: PACKS completes with the least number of words that holds N elements, which
fits RES. -/
def Obligations.PacksReturnsTheCeiling : Prop :=
  ∀ (s : State) (w n : Nat), s.fault = none → 1 ≤ w → w ≤ s.cfg.wb → n < 2 ^ 64 →
    ∃ x : Word64, exec (.packs w n) s = .next { s with res := some x } ∧
      x.toNat = (n * w + s.cfg.wb - 1) / s.cfg.wb ∧ x.toNat ≤ n ∧
      ∀ q, x.toNat ≤ q ↔ n * w ≤ q * s.cfg.wb

/-- 41_sizing.md R123: a buffer PACKS sized passes the index check for each of its N elements; what passes beyond
them lies in the bits of the last word the N elements do not use. -/
def Obligations.PacksSizesTheBuffer : Prop :=
  ∀ (c : Config) (w n : Nat), 1 ≤ w → w ≤ c.wb → c.bufWords = packsRequired c.wb n w →
    (∀ i, i < n → checkIndex c w i = none) ∧
    (∀ i, checkIndex c w i = none ↔ i < c.bufWords * c.wb / w) ∧
    (∀ i p, n ≤ i → checkIndex c w i = none → i * w ≤ p → p < i * w + w →
      n * w ≤ p ∧ p / c.wb + 1 = c.bufWords)

/-- 41_sizing.md R124: the width table, and the fault beyond it. -/
def Obligations.WselTable : Prop :=
  ∀ (s : State) (n : Nat), s.fault = none →
    (n ≤ 8 → exec (.wsel n) s = .next { s with res := some 8 }) ∧
    (9 ≤ n → n ≤ 16 → exec (.wsel n) s = .next { s with res := some 16 }) ∧
    (17 ≤ n → n ≤ 32 → exec (.wsel n) s = .next { s with res := some 32 }) ∧
    (33 ≤ n → n ≤ 64 → exec (.wsel n) s = .next { s with res := some 64 }) ∧
    (65 ≤ n → exec (.wsel n) s = .next { s with fault := some .fWselRange })

/-- 41_sizing.md R128: the result is the instance's in nothing, and only RES changes. -/
def Obligations.WselDoesNotDependOnTheInstance : Prop :=
  ∀ (s s' : State) (n : Nat), s.fault = none → s'.fault = none → n ≤ 64 →
    ∃ x : Word64, exec (.wsel n) s = .next { s with res := some x } ∧
      exec (.wsel n) s' = .next { s' with res := some x }

/-! ### Other writers -/

/-- With no other writer the word events of a command give its atomic step (10_state.md R20, 20_memory.md R50). -/
def Obligations.EventsWithoutInterferenceAreAtomic : Prop :=
  ∀ (c : Config) (p : PortProg c.wb) (n : Nat) (m : Memory),
    p.runAmong c (List.replicate n []) m = p.run c m

/-- A lost update (20_memory.md R52): a write another agent lands in a word between the read and the write of an
infix SET is gone, as if it had never happened. -/
def Obligations.InfixSetLosesAConcurrentWrite : Prop :=
  ∀ (c : Config) (w i : Nat) (v : Word64) (u : BitVec c.wb) (m : Memory), m.wf = true → CodecAccepts c w i →
    (locate c.wb w i).a = (locate c.wb w i).b →
    ∃ m' m'' : Memory,
      (setPort c.wb w i v).runAmong c [[], [((locate c.wb w i).a, u)]] m = .ok (m', none) ∧
      (setPort c.wb w i v).run c m = .ok (m'', none) ∧ ∀ k, m'.word c k = m''.word c k

/-- A torn read (20_memory.md R52): a GET of a straddling element, with word b replaced between its two reads,
combines the old word a with the new word b. -/
def Obligations.SplitGetCombinesOldAndNewWords : Prop :=
  ∀ (c : Config) (w i : Nat) (u : BitVec c.wb) (m : Memory), m.wf = true → CodecAccepts c w i →
    (locate c.wb w i).a ≠ (locate c.wb w i).b →
    ∃ (m' : Memory) (x : Word64),
      (getPort c.wb w i).runAmong c [[], [((locate c.wb w i).b, u)]] m = .ok (m', some x) ∧
      ∀ p, p < w → x.getLsbD p =
        if (locate c.wb w i).da + p < c.wb
        then (m.word c (locate c.wb w i).a).getLsbD ((locate c.wb w i).da + p)
        else u.getLsbD ((locate c.wb w i).da + p - c.wb)
end

