-- ==== Sys2Proof/Laws/State.lean ====
section
/-! SUPPORT. One lemma per field per update of State, and the rewriting rules of the two guards. -/

namespace Sys2Proof.Machine

@[simp] theorem writeRes_cfg (s : State) (v : Word64) : (s.writeRes v).cfg = s.cfg := rfl
@[simp] theorem writeRes_buf (s : State) (v : Word64) : (s.writeRes v).buf = s.buf := rfl
@[simp] theorem writeRes_res (s : State) (v : Word64) : (s.writeRes v).res = some v := rfl
@[simp] theorem writeRes_fault (s : State) (v : Word64) : (s.writeRes v).fault = s.fault := rfl
@[simp] theorem writeRes_pending (s : State) (v : Word64) : (s.writeRes v).pending = s.pending := rfl
@[simp] theorem writeRes_reads (s : State) (v : Word64) : (s.writeRes v).reads = s.reads := rfl

@[simp] theorem raise_cfg (s : State) (f : Fault) : (s.raise f).cfg = s.cfg := rfl
@[simp] theorem raise_buf (s : State) (f : Fault) : (s.raise f).buf = s.buf := rfl
@[simp] theorem raise_res (s : State) (f : Fault) : (s.raise f).res = s.res := rfl
@[simp] theorem raise_fault (s : State) (f : Fault) : (s.raise f).fault = some f := rfl
@[simp] theorem raise_pending (s : State) (f : Fault) : (s.raise f).pending = s.pending := rfl
@[simp] theorem raise_reads (s : State) (f : Fault) : (s.raise f).reads = s.reads := rfl

@[simp] theorem powerUp_cfg (c : Config) (m : Memory) : (State.powerUp c m).cfg = c := rfl
@[simp] theorem powerUp_buf (c : Config) (m : Memory) : (State.powerUp c m).buf = m := rfl
@[simp] theorem powerUp_res (c : Config) (m : Memory) : (State.powerUp c m).res = none := rfl
@[simp] theorem powerUp_fault (c : Config) (m : Memory) : (State.powerUp c m).fault = none := rfl
@[simp] theorem powerUp_pending (c : Config) (m : Memory) : (State.powerUp c m).pending = [] := rfl
@[simp] theorem powerUp_reads (c : Config) (m : Memory) : (State.powerUp c m).reads = [] := rfl

@[simp] theorem withFetchWord_cfg (s : State) (n w : Nat) : (s.withFetchWord n w).cfg = s.cfg := rfl
@[simp] theorem withFetchWord_buf (s : State) (n w : Nat) : (s.withFetchWord n w).buf = s.buf := rfl
@[simp] theorem withFetchWord_res (s : State) (n w : Nat) : (s.withFetchWord n w).res = s.res := rfl
@[simp] theorem withFetchWord_fault (s : State) (n w : Nat) : (s.withFetchWord n w).fault = s.fault := rfl
@[simp] theorem withFetchWord_reads (s : State) (n w : Nat) : (s.withFetchWord n w).reads = s.reads := rfl
@[simp] theorem withFetchWord_pending (s : State) (n w : Nat) :
    (s.withFetchWord n w).pending = .issue (Command.ofBits n w) :: s.pending := rfl

/-- A running state goes on. -/
theorem ifRunning_of_none {s : State} {k} (h : s.fault = none) : ifRunning s k = k := by
  simp [ifRunning, h]

/-- A faulted state stops with its fault. -/
theorem ifRunning_of_some {s : State} {f : Fault} {k} (h : s.fault = some f) : ifRunning s k = .fault f := by
  simp [ifRunning, h]

/-- A next state under the guard comes from a running state. -/
theorem ifRunning_next {s t : State} {k} (h : ifRunning s k = .next t) : s.fault = none ∧ k = .next t := by
  cases hf : s.fault with
  | none => exact ⟨rfl, by rwa [ifRunning_of_none hf] at h⟩
  | some f => rw [ifRunning_of_some hf] at h; cases h

@[simp] theorem unlessFault_none (s : State) (k) : unlessFault s none k = k := rfl
@[simp] theorem unlessFault_some (s : State) (f : Fault) (k) : unlessFault s (some f) k = .next (s.raise f) := rfl

/-- A next state behind a check: the fault was raised, or the check passed. -/
theorem unlessFault_next {s t : State} {chk : Option Fault} {k} (h : unlessFault s chk k = .next t) :
    (∃ f, chk = some f ∧ t = s.raise f) ∨ (chk = none ∧ k = .next t) := by
  cases chk with
  | none => exact .inr ⟨rfl, h⟩
  | some f => exact .inl ⟨f, rfl, by simpa using h.symm⟩

end Sys2Proof.Machine
end

