-- ==== Sys2Proof/Laws/Memory.lean ====
section
/-! SUPPORT. The laws of BUF: byte reads after byte writes, the canonical form, words over bytes, and buffer bits
over words. -/

namespace Sys2Proof.Machine

/-! ### Word widths -/

theorem wordBits_bits_eq (b : WordBits) : b.bits = 8 * b.bytes := by cases b <;> rfl

theorem wb_eq_bytes (c : Config) : c.wb = 8 * c.wordBits.bytes := wordBits_bits_eq c.wordBits

theorem bytes_pos (c : Config) : 0 < c.wordBits.bytes := by
  cases h : c.wordBits <;> decide

theorem wb_cases (c : Config) : c.wb = 8 ∨ c.wb = 16 ∨ c.wb = 32 ∨ c.wb = 64 := by
  unfold Config.wb
  cases c.wordBits <;> simp [WordBits.bits]

theorem wb_bounds (c : Config) : 8 ≤ c.wb ∧ c.wb ≤ 64 := by
  have := wb_cases c
  omega

/-! ### Bytes -/

theorem wfFrom_mono {lo lo' : Nat} {m : Memory} (hl : lo' ≤ lo) (h : m.wfFrom lo) : m.wfFrom lo' := by
  cases m with
  | nil => rfl
  | cons x m =>
    simp only [Memory.wfFrom, Bool.and_eq_true, decide_eq_true_eq] at h ⊢
    exact ⟨⟨by omega, h.1.2⟩, h.2⟩

/-- Below its least address a canonical memory reads as unlisted. -/
theorem readByte_below {lo n : Nat} {m : Memory} (h : m.wfFrom lo) (hn : n < lo) :
    m.readByte n = unlistedByte := by
  induction m generalizing lo with
  | nil => rfl
  | cons x m ih =>
    simp only [Memory.wfFrom, Bool.and_eq_true, decide_eq_true_eq] at h
    rw [Memory.readByte, if_neg (by omega)]
    exact ih h.2 (by omega)

theorem wfFrom_writeByte {lo n : Nat} {m : Memory} {b : Byte} (h : m.wfFrom lo) (hn : lo ≤ n) :
    (m.writeByte n b).wfFrom lo := by
  induction m generalizing lo with
  | nil =>
    unfold Memory.writeByte
    split <;> simp_all [Memory.wfFrom]
  | cons x m ih =>
    obtain ⟨a, y⟩ := x
    have h' := h
    simp only [Memory.wfFrom, Bool.and_eq_true, decide_eq_true_eq] at h'
    unfold Memory.writeByte
    split
    · split
      · exact h
      · rename_i hna hb
        simp only [Memory.wfFrom, Bool.and_eq_true, decide_eq_true_eq]
        exact ⟨⟨hn, hb⟩, ⟨hna, h'.1.2⟩, h'.2⟩
    · split
      · split
        · exact wfFrom_mono (by omega) h'.2
        · rename_i hb
          simp only [Memory.wfFrom, Bool.and_eq_true, decide_eq_true_eq]
          exact ⟨⟨h'.1.1, hb⟩, h'.2⟩
      · simp only [Memory.wfFrom, Bool.and_eq_true, decide_eq_true_eq]
        exact ⟨h'.1, ih h'.2 (by omega)⟩

/-- Writing a byte keeps the canonical form. -/
theorem wf_writeByte {m : Memory} (n : Nat) (b : Byte) (h : m.wf) : (m.writeByte n b).wf :=
  wfFrom_writeByte h (Nat.zero_le n)

theorem readByte_writeByte_from {lo n : Nat} {m : Memory} {b : Byte} (h : m.wfFrom lo) (n' : Nat) :
    (m.writeByte n b).readByte n' = if n' = n then b else m.readByte n' := by
  induction m generalizing lo with
  | nil =>
    unfold Memory.writeByte
    split <;> simp_all [Memory.readByte]
  | cons x m ih =>
    obtain ⟨a, y⟩ := x
    simp only [Memory.wfFrom, Bool.and_eq_true, decide_eq_true_eq] at h
    unfold Memory.writeByte
    split
    · rename_i hna
      split
      · rename_i hb
        split
        · rename_i hn'
          rw [Memory.readByte, if_neg (by omega), readByte_below h.2 (by omega), hb]
        · rfl
      · rw [Memory.readByte]
    · split
      · rename_i hna
        subst hna
        split
        · rename_i hb
          rw [Memory.readByte]
          split
          · rename_i hn'
            rw [readByte_below h.2 (by omega), hb]
          · rfl
        · simp only [Memory.readByte]
          split <;> rfl
      · rename_i h1 h2
        simp only [Memory.readByte]
        split
        · rw [if_neg (by omega)]
        · exact ih h.2

/-- A byte read after a byte write. -/
theorem readByte_writeByte {m : Memory} (h : m.wf) (n n' : Nat) (b : Byte) :
    (m.writeByte n b).readByte n' = if n' = n then b else m.readByte n' :=
  readByte_writeByte_from h n'

theorem within_cons {size : Nat} {x : Host.Cell} {m : Memory} :
    Memory.within size (x :: m) = true ↔ x.1 < size ∧ Memory.within size m = true := by
  simp only [Memory.within, List.all_cons, Bool.and_eq_true, decide_eq_true_eq]

theorem within_writeByte {size n : Nat} {m : Memory} {b : Byte} (h : m.within size) (hn : n < size) :
    (m.writeByte n b).within size := by
  induction m with
  | nil =>
    unfold Memory.writeByte
    split
    · exact h
    · exact within_cons.2 ⟨hn, h⟩
  | cons x m ih =>
    obtain ⟨hx, hm⟩ := within_cons.1 h
    unfold Memory.writeByte
    split
    · split
      · exact h
      · exact within_cons.2 ⟨hn, h⟩
    · split
      · split
        · exact hm
        · exact within_cons.2 ⟨hx, hm⟩
      · exact within_cons.2 ⟨hx, ih hm⟩

theorem eq_of_readByte_from {lo : Nat} {m m' : Memory} (h : m.wfFrom lo) (h' : m'.wfFrom lo)
    (he : ∀ n, m.readByte n = m'.readByte n) : m = m' := by
  induction m generalizing lo m' with
  | nil =>
    cases m' with
    | nil => rfl
    | cons y m' =>
      have := he y.1
      simp_all [Memory.wfFrom, Memory.readByte]
  | cons x m ih =>
    cases m' with
    | nil =>
      have := he x.1
      simp_all [Memory.wfFrom, Memory.readByte]
    | cons y m' =>
      obtain ⟨a, u⟩ := x
      obtain ⟨b, v⟩ := y
      simp only [Memory.wfFrom, Bool.and_eq_true, decide_eq_true_eq] at h h'
      have hab : a = b := by
        rcases Nat.lt_trichotomy a b with hlt | heq | hgt
        · have := he a
          rw [Memory.readByte, if_pos rfl, Memory.readByte, if_neg (by omega),
            readByte_below h'.2 (by omega)] at this
          exact absurd this h.1.2
        · exact heq
        · have := he b
          rw [Memory.readByte, if_neg (by omega), Memory.readByte, if_pos rfl,
            readByte_below h.2 (by omega)] at this
          exact absurd this.symm h'.1.2
      subst hab
      have huv : u = v := by simpa [Memory.readByte] using he a
      subst huv
      congr 1
      refine ih h.2 h'.2 fun n => ?_
      have hn := he n
      by_cases hna : n = a
      · rw [readByte_below h.2 (by omega), readByte_below h'.2 (by omega)]
      · simpa [Memory.readByte, hna] using hn

/-- Canonical memories that read alike are equal. -/
theorem memory_ext {m m' : Memory} (h : m.wf) (h' : m'.wf) (he : ∀ n, m.readByte n = m'.readByte n) : m = m' :=
  eq_of_readByte_from h h' he

/-! ### Where the bytes of a word stand -/

theorem byteAddr_eq (c : Config) (k j : Nat) : ∃ d, byteAddr c k j = k * c.wordBits.bytes + d ∧
    (c.byteOrder = .little → d = j) ∧ (c.byteOrder = .big → d = c.wordBits.bytes - 1 - j) := by
  cases h : c.byteOrder <;> exact ⟨_, by rw [byteAddr, h], by simp, by simp⟩

theorem byteAddr_div {c : Config} {k j : Nat} (hj : j < c.wordBits.bytes) :
    byteAddr c k j / c.wordBits.bytes = k := by
  obtain ⟨d, hd, hl, hb⟩ := byteAddr_eq c k j
  have hdl : d < c.wordBits.bytes := by
    cases h : c.byteOrder
    · rw [hl h]; exact hj
    · rw [hb h]; omega
  rw [hd, Nat.add_comm, Nat.add_mul_div_right _ _ (bytes_pos c), Nat.div_eq_of_lt hdl, Nat.zero_add]

theorem byteAddr_inj {c : Config} {k k' j j' : Nat} (hj : j < c.wordBits.bytes) (hj' : j' < c.wordBits.bytes) :
    byteAddr c k j = byteAddr c k' j' ↔ k = k' ∧ j = j' := by
  refine ⟨fun h => ?_, fun h => by rw [h.1, h.2]⟩
  have hk : k = k' := by rw [← byteAddr_div (k := k) hj, h, byteAddr_div hj']
  subst hk
  refine ⟨rfl, ?_⟩
  unfold byteAddr at h
  cases ho : c.byteOrder <;> simp only [ho] at h <;> omega

theorem byteAddr_lt {c : Config} {k j : Nat} (hk : k < c.bufWords) (hj : j < c.wordBits.bytes) :
    byteAddr c k j < byteSize c := by
  have h := byteAddr_div (k := k) hj
  rw [byteSize, ← Nat.div_lt_iff_lt_mul (bytes_pos c), h]
  exact hk

/-! ### Words -/

theorem joinBytes_lt (f : Nat → Byte) (n : Nat) : joinBytes f n < 2 ^ (8 * n) := by
  induction n with
  | zero => simp [joinBytes]
  | succ n ih =>
    have hf := (f n).isLt
    rw [joinBytes, show 8 * (n + 1) = 8 * n + 8 by omega, Nat.pow_add]
    have : (f n).toNat * 2 ^ (8 * n) ≤ 255 * 2 ^ (8 * n) := Nat.mul_le_mul_right _ (by omega)
    omega

theorem joinBytes_testBit (f : Nat → Byte) (n p : Nat) :
    (joinBytes f n).testBit p = (decide (p < 8 * n) && (f (p / 8)).getLsbD (p % 8)) := by
  induction n with
  | zero => simp [joinBytes]
  | succ n ih =>
    rw [joinBytes, Nat.add_comm, Nat.mul_comm, Nat.testBit_two_pow_mul_add _ (joinBytes_lt f n)]
    split
    · rename_i h
      rw [ih, decide_eq_true h, decide_eq_true (by omega : p < 8 * (n + 1))]
    · rename_i h
      by_cases hp : p < 8 * (n + 1)
      · have h1 : p / 8 = n := by omega
        have h2 : p % 8 = p - 8 * n := by omega
        rw [h1, h2, decide_eq_true hp, Bool.true_and]
        rfl
      · rw [decide_eq_false hp, Bool.false_and]
        exact BitVec.getLsbD_of_ge (f n) (p - 8 * n) (by omega)

/-- Each bit of a word, from the byte that holds it. -/
theorem word_getLsbD (c : Config) (m : Memory) (k p : Nat) :
    (m.word c k).getLsbD p =
      (decide (p < c.wb) && (m.readByte (byteAddr c k (p / 8))).getLsbD (p % 8)) := by
  rw [Memory.word, BitVec.getLsbD_ofNat, joinBytes_testBit, ← wb_eq_bytes]
  by_cases h : p < c.wb <;> simp [h]

theorem wf_storeBytes {c : Config} {k : Nat} {v : BitVec c.wb} {m : Memory} (h : m.wf) (n : Nat) :
    (Memory.storeBytes c k v n m).wf := by
  induction n with
  | zero => exact h
  | succ n ih => exact wf_writeByte _ _ ih

/-- Writing a word keeps the canonical form. -/
theorem wf_setWord {c : Config} {m : Memory} (k : Nat) (v : BitVec c.wb) (h : m.wf) : (m.setWord c k v).wf :=
  wf_storeBytes h _

theorem within_storeBytes {c : Config} {k : Nat} {v : BitVec c.wb} {m : Memory}
    (h : m.within (byteSize c)) (hk : k < c.bufWords) {n : Nat} (hn : n ≤ c.wordBits.bytes) :
    (Memory.storeBytes c k v n m).within (byteSize c) := by
  induction n with
  | zero => exact h
  | succ n ih => exact within_writeByte (ih (by omega)) (byteAddr_lt hk (by omega))

/-- Writing a word of BUF lists nothing outside BUF. -/
theorem within_setWord {c : Config} {m : Memory} {k : Nat} (v : BitVec c.wb)
    (h : m.within (byteSize c)) (hk : k < c.bufWords) : (m.setWord c k v).within (byteSize c) :=
  within_storeBytes h hk (Nat.le_refl _)

theorem readByte_storeBytes_miss {c : Config} {k : Nat} {v : BitVec c.wb} {m : Memory} (h : m.wf) {n x : Nat}
    (hx : ∀ j < n, x ≠ byteAddr c k j) : (Memory.storeBytes c k v n m).readByte x = m.readByte x := by
  induction n with
  | zero => rfl
  | succ n ih =>
    rw [Memory.storeBytes, readByte_writeByte (wf_storeBytes h n), if_neg (hx n (Nat.lt_succ_self n))]
    exact ih fun j hj => hx j (by omega)

theorem readByte_storeBytes_hit {c : Config} {k : Nat} {v : BitVec c.wb} {m : Memory} (h : m.wf) {n j : Nat}
    (hn : n ≤ c.wordBits.bytes) (hj : j < n) :
    (Memory.storeBytes c k v n m).readByte (byteAddr c k j) = v.extractLsb' (8 * j) 8 := by
  induction n with
  | zero => omega
  | succ n ih =>
    rw [Memory.storeBytes, readByte_writeByte (wf_storeBytes h n)]
    by_cases hjn : j = n
    · subst hjn; rw [if_pos rfl]
    · rw [if_neg (by rw [byteAddr_inj (by omega) (by omega)]; omega)]
      exact ih (by omega) (by omega)

/-- A byte of another word is kept. -/
theorem readByte_setWord_other {c : Config} {k : Nat} {v : BitVec c.wb} {m : Memory} (h : m.wf) {x : Nat}
    (hx : x / c.wordBits.bytes ≠ k) : (m.setWord c k v).readByte x = m.readByte x :=
  readByte_storeBytes_miss h fun j hj he => hx (by rw [he, byteAddr_div hj])

/-- A word read after a word write (20_memory.md R49: "A write changes exactly the one addressed word"). -/
theorem word_setWord {c : Config} {m : Memory} (h : m.wf) (k k' : Nat) (v : BitVec c.wb) :
    (m.setWord c k v).word c k' = if k' = k then v else m.word c k' := by
  apply BitVec.eq_of_getLsbD_eq
  intro p hp
  have hj : p / 8 < c.wordBits.bytes := by have := wb_eq_bytes c; omega
  rw [word_getLsbD]
  by_cases hk : k' = k
  · subst hk
    rw [if_pos rfl, Memory.setWord, readByte_storeBytes_hit h (Nat.le_refl _) hj, decide_eq_true hp,
      BitVec.getLsbD_extractLsb', decide_eq_true (by omega : p % 8 < 8), Bool.true_and, Bool.true_and,
      show 8 * (p / 8) + p % 8 = p by omega]
  · rw [if_neg hk, readByte_setWord_other h (by rw [byteAddr_div hj]; exact hk), word_getLsbD]

/-! ### Buffer bits -/

theorem value_lt (c : Config) (m : Memory) (n : Nat) : m.value c n < 2 ^ (n * c.wb) := by
  induction n with
  | zero => simp [Memory.value]
  | succ n ih =>
    have hw := (m.word c n).isLt
    rw [Memory.value, Nat.succ_mul, Nat.pow_add]
    have : (m.word c n).toNat * 2 ^ (n * c.wb) ≤ (2 ^ c.wb - 1) * 2 ^ (n * c.wb) :=
      Nat.mul_le_mul_right _ (by omega)
    have h2 : 1 * 2 ^ (n * c.wb) ≤ 2 ^ c.wb * 2 ^ (n * c.wb) := Nat.mul_le_mul_right _ Nat.one_le_two_pow
    rw [Nat.sub_mul] at this
    have h3 : 2 ^ (n * c.wb) * 2 ^ c.wb = 2 ^ c.wb * 2 ^ (n * c.wb) := Nat.mul_comm _ _
    omega

/-- The buffer value is the number whose bits are the buffer bits (20_memory.md R41 against R40). -/
theorem value_testBit (c : Config) (m : Memory) (n p : Nat) :
    (m.value c n).testBit p = (decide (p < n * c.wb) && m.bit c p) := by
  induction n with
  | zero => simp [Memory.value]
  | succ n ih =>
    have hpos := (wb_bounds c).1
    rw [Memory.value, Nat.add_comm, Nat.mul_comm, Nat.testBit_two_pow_mul_add _ (value_lt c m n)]
    have hs : (n + 1) * c.wb = n * c.wb + c.wb := Nat.succ_mul n c.wb
    split
    · rename_i h
      rw [ih, decide_eq_true h, decide_eq_true (by omega : p < (n + 1) * c.wb)]
    · rename_i h
      by_cases hp : p < (n + 1) * c.wb
      · have h1 : p / c.wb = n := by
          rw [Nat.div_eq_iff (by omega)]
          omega
        have h2 : p % c.wb = p - n * c.wb := by
          have := Nat.div_add_mod p c.wb
          rw [h1, Nat.mul_comm] at this
          omega
        rw [decide_eq_true hp, Bool.true_and, Memory.bit, h1, h2]
        rfl
      · rw [decide_eq_false hp, Bool.false_and]
        exact BitVec.getLsbD_of_ge _ _ (by omega)

end Sys2Proof.Machine
end

