-- ==== Sys2Proof/Laws/Operands.lean ====
section
/-! SUPPORT. The derivation functions bit by bit, the place of an element, and what each check says. -/

namespace Sys2Proof.Machine

/-! ### Shifts and masks -/

theorem shl_of_lt {wb s : Nat} (x : BitVec wb) (h : s < wb) : shl x s = x <<< s := if_pos h

theorem shr_of_lt {wb s : Nat} (x : BitVec wb) (h : s < wb) : shr x s = x >>> s := if_pos h

theorem shl_getLsbD {wb s : Nat} (x : BitVec wb) (h : s < wb) (p : Nat) :
    (shl x s).getLsbD p = (decide (p < wb) && decide (s ≤ p) && x.getLsbD (p - s)) := by
  rw [shl_of_lt x h, BitVec.getLsbD_shiftLeft]
  by_cases hp : p < s
  · simp [hp]
  · simp [hp, Nat.le_of_not_lt hp]

theorem shr_getLsbD {wb s : Nat} (x : BitVec wb) (h : s < wb) (p : Nat) :
    (shr x s).getLsbD p = x.getLsbD (s + p) := by
  rw [shr_of_lt x h, BitVec.getLsbD_ushiftRight]

/-- The element mask has exactly the bits below `w` (40_codec.md R81). -/
theorem mask_getLsbD {wb w : Nat} (h8 : 8 ≤ wb) (h1 : 1 ≤ w) (hw : w ≤ wb) (p : Nat) :
    (mask wb w).getLsbD p = decide (p < w) := by
  rw [mask, BitVec.getLsbD_not, shl_getLsbD _ (by omega), shl_getLsbD _ (by omega), ones,
    BitVec.getLsbD_allOnes]
  by_cases hp : p < w
  · have h2 : ¬ (1 ≤ p ∧ w - 1 ≤ p - 1) := by omega
    by_cases h1p : 1 ≤ p
    · simp [hp, show p < wb by omega, show ¬ w - 1 ≤ p - 1 by omega]
    · simp [hp, show p < wb by omega, h1p]
  · by_cases hpw : p < wb
    · simp [hp, hpw, show 1 ≤ p by omega, show p - 1 < wb by omega, show w - 1 ≤ p - 1 by omega,
        show p - 1 - (w - 1) < wb by omega]
    · simp [hp, hpw]

/-- The low mask has exactly the bits below `s` (40_codec.md R82). -/
theorem lowMask_getLsbD {wb s : Nat} (h : s < wb) (p : Nat) :
    (lowMask wb s).getLsbD p = decide (p < s) := by
  rw [lowMask, BitVec.getLsbD_not, shl_getLsbD _ h, ones, BitVec.getLsbD_allOnes]
  by_cases hp : p < s
  · simp [hp, show p < wb by omega, show ¬ s ≤ p by omega]
  · by_cases hpw : p < wb
    · simp [hp, hpw, show s ≤ p by omega, show p - s < wb by omega]
    · simp [hp, hpw]

/-- The high mask has exactly the bits at and above `da + w` (40_codec.md R83). -/
theorem highMask_getLsbD {wb da w : Nat} (h8 : 8 ≤ wb) (h1 : 1 ≤ w) (hw : da + w ≤ wb) (p : Nat) :
    (highMask wb da w).getLsbD p = (decide (p < wb) && decide (da + w ≤ p)) := by
  rw [highMask, shl_getLsbD _ (by omega), shl_getLsbD _ (by omega), ones, BitVec.getLsbD_allOnes]
  by_cases hpw : p < wb
  · by_cases hp : da + w ≤ p
    · simp [hp, hpw, show 1 ≤ p by omega, show p - 1 < wb by omega, show da + w - 1 ≤ p - 1 by omega,
        show p - 1 - (da + w - 1) < wb by omega]
    · by_cases h1p : 1 ≤ p
      · simp [hp, hpw, show ¬ da + w - 1 ≤ p - 1 by omega]
      · simp [hp, hpw, h1p]
  · simp [hpw]

/-- The stored value has the low `w` bits of VAL (40_codec.md R103). -/
theorem truncateTo_getLsbD {wb w : Nat} (v : Word64) (p : Nat) :
    (truncateTo wb w v).getLsbD p = (decide (p < wb) && decide (p < w) && v.getLsbD p) := by
  rw [truncateTo, BitVec.getLsbD_ofNat, Nat.testBit_mod_two_pow, ← Bool.and_assoc]
  rfl

theorem zext64_getLsbD {wb : Nat} (h : wb ≤ 64) (x : BitVec wb) (p : Nat) :
    (zext64 x).getLsbD p = x.getLsbD p := by
  rw [zext64, BitVec.getLsbD_setWidth]
  by_cases hp : p < 64
  · simp [hp]
  · simp [hp, BitVec.getLsbD_of_ge x p (by omega)]

/-! ### The place of an element -/

theorem locate_da_lt {wb : Nat} (h : 0 < wb) (w i : Nat) : (locate wb w i).da < wb := Nat.mod_lt _ h

theorem locate_offset (wb w i : Nat) : i * w = (locate wb w i).a * wb + (locate wb w i).da := by
  have := Nat.div_add_mod (i * w) wb
  simp only [locate]
  rw [Nat.mul_comm _ wb]
  exact this.symm

theorem div_mod_of_split {wb q r n : Nat} (hr : r < wb) (h : n = q * wb + r) : n / wb = q ∧ n % wb = r := by
  subst h
  constructor
  · rw [Nat.add_comm, Nat.add_mul_div_right _ _ (by omega), Nat.div_eq_of_lt hr, Nat.zero_add]
  · rw [Nat.add_comm, Nat.add_mul_mod_self_right, Nat.mod_eq_of_lt hr]

/-- An element that fits in word a (40_codec.md R85(b)). -/
theorem locate_infix {wb w i : Nat} (h1 : 1 ≤ w) (h : (locate wb w i).da + w ≤ wb) :
    (locate wb w i).b = (locate wb w i).a := by
  have hj := locate_offset wb w i
  exact (div_mod_of_split (n := i * w + w - 1) (q := (locate wb w i).a)
    (r := (locate wb w i).da + w - 1) (by omega) (by omega)).1

/-- An element that straddles (40_codec.md R85(a), (b)). -/
theorem locate_split {wb w i : Nat} (hb : 0 < wb) (hw : w ≤ wb) (h : wb < (locate wb w i).da + w) :
    (locate wb w i).b = (locate wb w i).a + 1 := by
  have hj := locate_offset wb w i
  have hd := locate_da_lt hb w i
  have hs : ((locate wb w i).a + 1) * wb = (locate wb w i).a * wb + wb := Nat.succ_mul _ _
  exact (div_mod_of_split (n := i * w + w - 1) (q := (locate wb w i).a + 1)
    (r := (locate wb w i).da + w - 1 - wb) (by omega) (by omega)).1

theorem locate_a_eq_b_iff {wb w i : Nat} (hb : 0 < wb) (h1 : 1 ≤ w) (hw : w ≤ wb) :
    (locate wb w i).a = (locate wb w i).b ↔ (locate wb w i).da + w ≤ wb := by
  by_cases h : (locate wb w i).da + w ≤ wb
  · simp [h, locate_infix h1 h]
  · rw [locate_split hb hw (by omega)]
    omega

/-- The index check keeps both words of the element inside BUF (40_codec.md R85(d)). -/
theorem locate_b_lt {wb w i n : Nat} (hb : 0 < wb) (h1 : 1 ≤ w) (h : (i + 1) * w ≤ n * wb) :
    (locate wb w i).b < n := by
  simp only [locate]
  rw [Nat.div_lt_iff_lt_mul hb]
  rw [Nat.succ_mul] at h
  omega

theorem locate_a_le_b (wb w i : Nat) (h1 : 1 ≤ w) : (locate wb w i).a ≤ (locate wb w i).b := by
  simp only [locate]
  exact Nat.div_le_div_right (by omega)

/-- Element bit `p` in word a (20_memory.md R40, 40_codec.md R84). -/
theorem locate_bit_left {wb w i p : Nat} (h : (locate wb w i).da + p < wb) :
    (i * w + p) / wb = (locate wb w i).a ∧ (i * w + p) % wb = (locate wb w i).da + p :=
  div_mod_of_split h (by have := locate_offset wb w i; omega)

/-- Element bit `p` in word a + 1 (20_memory.md R40, 40_codec.md R84). -/
theorem locate_bit_right {wb w i p : Nat} (hb : 0 < wb) (hp : p < wb) (h : wb ≤ (locate wb w i).da + p) :
    (i * w + p) / wb = (locate wb w i).a + 1 ∧ (i * w + p) % wb = (locate wb w i).da + p - wb := by
  have hj := locate_offset wb w i
  have hd := locate_da_lt hb w i
  have hs : ((locate wb w i).a + 1) * wb = (locate wb w i).a * wb + wb := Nat.succ_mul _ _
  exact div_mod_of_split (by omega) (by omega)

/-! ### Checks -/

theorem checkWidthRange_eq_none {c : Config} {w : Nat} : checkWidthRange c w = none ↔ 1 ≤ w ∧ w ≤ c.wb := by
  unfold checkWidthRange
  split
  · simp; omega
  · simp; omega

theorem checkWidthRange_cases (c : Config) (w : Nat) :
    checkWidthRange c w = none ∨ checkWidthRange c w = some .fWidth := by
  unfold checkWidthRange
  split <;> simp

theorem checkWidth_eq_none {c : Config} {w : Nat} :
    checkWidth c w = none ↔ (1 ≤ w ∧ w ≤ c.wb) ∧ ∀ f, c.fixedW = some f → w = f := by
  rw [checkWidth, Option.or_eq_none_iff, checkWidthRange_eq_none]
  cases c.fixedW <;> simp

theorem checkWidth_cases (c : Config) (w : Nat) : checkWidth c w = none ∨ checkWidth c w = some .fWidth := by
  rcases checkWidthRange_cases c w with h | h
  · unfold checkWidth
    rw [h]
    cases c.fixedW with
    | none => simp
    | some f => by_cases hf : w = f <;> simp [hf]
  · right; simp [checkWidth, h]

theorem checkIndex_eq_none {c : Config} {w i : Nat} :
    checkIndex c w i = none ↔ (i + 1) * w ≤ c.bufWords * c.wb := by
  unfold checkIndex
  split
  · simp; omega
  · simp; omega

theorem checkCodec_eq_none {c : Config} {w i : Nat} :
    checkCodec c w i = none ↔
      ((1 ≤ w ∧ w ≤ c.wb) ∧ ∀ f, c.fixedW = some f → w = f) ∧ (i + 1) * w ≤ c.bufWords * c.wb := by
  rw [checkCodec, Option.or_eq_none_iff, checkWidth_eq_none, checkIndex_eq_none]

theorem checkWsel_eq_none {n : Nat} : checkWsel n = none ↔ n ≤ 64 := by
  unfold checkWsel
  split
  · simp; omega
  · simp; omega

end Sys2Proof.Machine
end

