-- ==== Sys2Proof/Laws/Codec.lean ====
section
/-! SUPPORT. What the memory port does for GET and SET: each port program run to its end, and the result bit by
bit. -/

namespace Sys2Proof.Machine

@[simp] theorem run_done (c : Config) (r : Option Word64) (m : Memory) :
    PortProg.run c (.done r) m = .ok (m, r) := rfl

theorem run_read {c : Config} {k : Nat} (h : k < c.bufWords) (f : BitVec c.wb → PortProg c.wb) (m : Memory) :
    PortProg.run c (.read k f) m = PortProg.run c (f (m.word c k)) m := if_pos h

theorem run_write {c : Config} {k : Nat} (h : k < c.bufWords) (v : BitVec c.wb) (p : PortProg c.wb)
    (m : Memory) : PortProg.run c (.write k v p) m = PortProg.run c p (m.setWord c k v) := if_pos h

/-- A complete port program takes a next state. -/
theorem runPort_of_ok {s : State} {p : PortProg s.cfg.wb} {m : Memory} {r : Option Word64}
    (h : p.run s.cfg s.buf = .ok (m, r)) : s.runPort p = .next { s with buf := m, res := r.or s.res } := by
  rw [State.runPort, h]

/-- Everything a port program can do to the state. -/
theorem runPort_next {s t : State} {p : PortProg s.cfg.wb} (h : s.runPort p = .next t) :
    ∃ m r, p.run s.cfg s.buf = .ok (m, r) ∧ t = { s with buf := m, res := r.or s.res } := by
  unfold State.runPort at h
  split at h
  · rename_i m r hr
    exact ⟨m, r, hr, by injection h with h; exact h.symm⟩
  · cases h

/-- Every program at the port keeps the canonical form and lists nothing outside BUF. -/
theorem run_keeps {c : Config} {p : PortProg c.wb} {m m' : Memory} {r : Option Word64}
    (h : p.run c m = .ok (m', r)) (hw : m.wf) (hs : m.within (byteSize c)) : m'.wf ∧ m'.within (byteSize c) := by
  induction p generalizing m with
  | done r' =>
    rw [run_done] at h
    injection h with h
    injection h with h1 h2
    subst h1
    exact ⟨hw, hs⟩
  | read k f ih =>
    by_cases hk : k < c.bufWords
    · rw [run_read hk] at h
      exact ih _ h hw hs
    · rw [PortProg.run, if_neg hk] at h; cases h
  | write k v p ih =>
    by_cases hk : k < c.bufWords
    · rw [run_write hk] at h
      exact ih h (wf_setWord k v hw) (within_setWord v hs hk)
    · rw [PortProg.run, if_neg hk] at h; cases h

/-! ### GET -/

theorem getBitPort_run {c : Config} {i : Nat} (h : i / c.wb < c.bufWords) (m : Memory) :
    (getBitPort c.wb i).run c m = .ok (m, some (zext64 (shr (m.word c (i / c.wb)) (i % c.wb) &&& 1))) := by
  rw [getBitPort, run_read h, run_done]

theorem getGeneralPort_run_infix {c : Config} {w i : Nat} (h : (locate c.wb w i).a = (locate c.wb w i).b)
    (ha : (locate c.wb w i).a < c.bufWords) (m : Memory) :
    (getGeneralPort c.wb w i).run c m =
      .ok (m, some (zext64 (shr (m.word c (locate c.wb w i).a) (locate c.wb w i).da &&& mask c.wb w))) := by
  rw [getGeneralPort, run_read ha, if_pos h, run_done]

theorem getGeneralPort_run_split {c : Config} {w i : Nat} (h : (locate c.wb w i).a ≠ (locate c.wb w i).b)
    (ha : (locate c.wb w i).a < c.bufWords) (hb : (locate c.wb w i).b < c.bufWords) (m : Memory) :
    (getGeneralPort c.wb w i).run c m =
      .ok (m, some (zext64 ((shr (m.word c (locate c.wb w i).a) (locate c.wb w i).da |||
        shl (m.word c (locate c.wb w i).b) (c.wb - (locate c.wb w i).da)) &&& mask c.wb w))) := by
  rw [getGeneralPort, run_read ha, if_neg h, run_read hb, run_done]

/-- The general path reads exactly the element's bits (40_codec.md R101, R110(b)). -/
theorem getGeneralPort_bits {c : Config} {w i : Nat} (h1 : 1 ≤ w) (hw : w ≤ c.wb)
    (hi : (i + 1) * w ≤ c.bufWords * c.wb) (m : Memory) :
    ∃ v : Word64, (getGeneralPort c.wb w i).run c m = .ok (m, some v) ∧
      ∀ p, v.getLsbD p = (decide (p < w) && m.bit c (i * w + p)) := by
  obtain ⟨h8, h64⟩ := wb_bounds c
  have hb := locate_b_lt (by omega) h1 hi
  have ha : (locate c.wb w i).a < c.bufWords := by have := locate_a_le_b c.wb w i h1; omega
  have hd := locate_da_lt (wb := c.wb) (by omega) w i
  by_cases hf : (locate c.wb w i).da + w ≤ c.wb
  · refine ⟨_, getGeneralPort_run_infix (locate_infix h1 hf).symm ha m, fun p => ?_⟩
    rw [zext64_getLsbD h64, BitVec.getLsbD_and, mask_getLsbD h8 h1 hw, shr_getLsbD _ hd]
    by_cases hp : p < w
    · obtain ⟨hq, hr⟩ := locate_bit_left (wb := c.wb) (w := w) (i := i) (p := p) (by omega)
      rw [Memory.bit, hq, hr, Bool.and_comm]
    · simp [hp]
  · have hs := locate_split (by omega) hw (by omega : c.wb < (locate c.wb w i).da + w)
    refine ⟨_, getGeneralPort_run_split (by omega) ha hb m, fun p => ?_⟩
    rw [zext64_getLsbD h64, BitVec.getLsbD_and, mask_getLsbD h8 h1 hw, BitVec.getLsbD_or, shr_getLsbD _ hd,
      shl_getLsbD _ (by omega)]
    by_cases hp : p < w
    · by_cases hl : (locate c.wb w i).da + p < c.wb
      · obtain ⟨hq, hr⟩ := locate_bit_left hl
        rw [Memory.bit, hq, hr]
        simp [show ¬ c.wb - (locate c.wb w i).da ≤ p by omega, hp]
      · obtain ⟨hq, hr⟩ := locate_bit_right (wb := c.wb) (w := w) (i := i) (p := p) (by omega) (by omega) (by omega)
        rw [Memory.bit, hq, hr, hs, BitVec.getLsbD_of_ge _ _ (by omega : c.wb ≤ (locate c.wb w i).da + p),
          show p - (c.wb - (locate c.wb w i).da) = (locate c.wb w i).da + p - c.wb by omega]
        simp [hp, show p < c.wb by omega, show c.wb ≤ p + (locate c.wb w i).da by omega]
    · simp [hp]

theorem one_getLsbD {wb : Nat} (h : 8 ≤ wb) (p : Nat) : (1 : BitVec wb).getLsbD p = decide (p = 0) := by
  rw [show (1 : BitVec wb) = BitVec.ofNat wb 1 from rfl, BitVec.getLsbD_ofNat]
  by_cases hp : p = 0
  · subst hp; simp; omega
  · simp [hp, show Nat.testBit 1 p = false by cases p <;> simp_all [Nat.testBit_succ]]

/-- The single-bit path reads exactly the element's bit (40_codec.md R102). -/
theorem getBitPort_bits {c : Config} {i : Nat} (hi : i + 1 ≤ c.bufWords * c.wb) (m : Memory) :
    ∃ v : Word64, (getBitPort c.wb i).run c m = .ok (m, some v) ∧
      ∀ p, v.getLsbD p = (decide (p < 1) && m.bit c (i * 1 + p)) := by
  obtain ⟨h8, h64⟩ := wb_bounds c
  have hk : i / c.wb < c.bufWords := by rw [Nat.div_lt_iff_lt_mul (by omega)]; omega
  refine ⟨_, getBitPort_run hk m, fun p => ?_⟩
  rw [zext64_getLsbD h64, BitVec.getLsbD_and, shr_getLsbD _ (Nat.mod_lt _ (by omega)), one_getLsbD h8]
  by_cases hp : p = 0
  · subst hp; simp [Memory.bit]
  · simp [hp]

/-- GET after its checks, whichever path it takes (40_codec.md R88, R110(b)). -/
theorem getPort_bits {c : Config} {w i : Nat} (h1 : 1 ≤ w) (hw : w ≤ c.wb)
    (hi : (i + 1) * w ≤ c.bufWords * c.wb) (m : Memory) :
    ∃ v : Word64, (getPort c.wb w i).run c m = .ok (m, some v) ∧
      ∀ p, v.getLsbD p = (decide (p < w) && m.bit c (i * w + p)) := by
  unfold getPort
  split
  · rename_i h
    subst h
    exact getBitPort_bits (by omega) m
  · exact getGeneralPort_bits h1 hw hi m

/-! ### SET: the words written -/

/-- The written word of the infix path, bit by bit (40_codec.md R105). -/
theorem infixWord_getLsbD {wb w da : Nat} (h8 : 8 ≤ wb) (h1 : 1 ≤ w) (hf : da + w ≤ wb) (v : Word64)
    (x : BitVec wb) (p : Nat) :
    (infixWord w da (truncateTo wb w v) x).getLsbD p =
      if da ≤ p ∧ p < da + w then v.getLsbD (p - da) else x.getLsbD p := by
  rw [infixWord, BitVec.getLsbD_or, BitVec.getLsbD_and, BitVec.getLsbD_or, lowMask_getLsbD (by omega),
    highMask_getLsbD h8 h1 hf, shl_getLsbD _ (by omega), truncateTo_getLsbD]
  by_cases hp : p < wb
  · by_cases hin : da ≤ p ∧ p < da + w
    · simp [hin, hp, show ¬ p < da by omega, show ¬ da + w ≤ p by omega, show p - da < wb by omega,
        show p - da < w by omega]
    · rw [if_neg hin]
      by_cases hlo : p < da
      · simp [hlo, show ¬ da ≤ p by omega]
      · simp [hp, hlo, show da + w ≤ p by omega, show ¬ p - da < w by omega]
  · rw [if_neg (by omega), BitVec.getLsbD_of_ge x p (by omega)]
    simp [hp]

/-- Word a of a split write, bit by bit (40_codec.md R106, R107). -/
theorem splitLeftWord_getLsbD {wb w da : Nat} (hd : da < wb) (hs : wb < da + w) (v : Word64)
    (x : BitVec wb) (p : Nat) :
    (splitLeftWord da (truncateTo wb w v) x).getLsbD p =
      if da ≤ p ∧ p < wb then v.getLsbD (p - da) else x.getLsbD p := by
  rw [splitLeftWord, BitVec.getLsbD_or, BitVec.getLsbD_and, lowMask_getLsbD hd, shl_getLsbD _ hd,
    truncateTo_getLsbD]
  by_cases hp : p < wb
  · by_cases hlo : p < da
    · simp [hlo, show ¬ da ≤ p by omega]
    · simp [hp, hlo, show da ≤ p by omega, show p - da < wb by omega, show p - da < w by omega]
  · rw [if_neg (by omega), BitVec.getLsbD_of_ge x p (by omega)]
    simp [hp]

/-- Word b of a split write, bit by bit (40_codec.md R106, R107). -/
theorem splitRightWord_getLsbD {wb w da : Nat} (hd : da < wb) (hw : w ≤ wb) (hs : wb < da + w) (v : Word64)
    (x : BitVec wb) (p : Nat) :
    (splitRightWord w da (truncateTo wb w v) x).getLsbD p =
      if p < da + w - wb then v.getLsbD (wb - da + p) else x.getLsbD p := by
  rw [splitRightWord, splitBits, BitVec.getLsbD_or, BitVec.getLsbD_and, BitVec.getLsbD_not,
    lowMask_getLsbD (by omega), shr_getLsbD _ (by omega), truncateTo_getLsbD]
  by_cases hp : p < da + w - wb
  · simp [hp, show wb - da + p < wb by omega, show wb - da + p < w by omega]
  · rw [if_neg hp]
    by_cases hpw : p < wb
    · simp [hp, hpw, show ¬ wb - da + p < w by omega]
    · rw [BitVec.getLsbD_of_ge x p (by omega)]
      simp [show ¬ wb - da + p < w by omega]

/-- The single-bit path writes the word the infix path writes at w = 1 (40_codec.md R108, R111). -/
theorem setBitWord_eq {wb s : Nat} (h8 : 8 ≤ wb) (hs : s < wb) (v : Word64) (x : BitVec wb) :
    (x &&& ~~~ shl 1 s) ||| shl (truncateTo wb 1 v) s = infixWord 1 s (truncateTo wb 1 v) x := by
  apply BitVec.eq_of_getLsbD_eq
  intro p hp
  rw [infixWord_getLsbD h8 (Nat.le_refl 1) (by omega), BitVec.getLsbD_or, BitVec.getLsbD_and,
    BitVec.getLsbD_not, shl_getLsbD _ hs, shl_getLsbD _ hs, truncateTo_getLsbD, one_getLsbD h8]
  by_cases hps : p = s
  · subst hps; simp [hp]; omega
  · rw [if_neg (by omega)]
    by_cases hlt : p < s
    · simp [hp, show ¬ s ≤ p by omega]
    · simp [hp, show s ≤ p by omega, show ¬ p - s = 0 by omega, show ¬ p - s < 1 by omega]

/-! ### SET: the buffer after -/

/-- The memory SET leaves, as the words it writes (40_codec.md R104, R106, R108). -/
def setMemory (c : Config) (w i : Nat) (v : Word64) (m : Memory) : Memory :=
  let l := locate c.wb w i
  let x := truncateTo c.wb w v
  if l.a = l.b then m.setWord c l.a (infixWord w l.da x (m.word c l.a))
  else
    let m1 := m.setWord c l.a (splitLeftWord l.da x (m.word c l.a))
    m1.setWord c l.b (splitRightWord w l.da x (m1.word c l.b))

theorem setGeneralPort_run {c : Config} {w i : Nat} (h1 : 1 ≤ w) (hi : (i + 1) * w ≤ c.bufWords * c.wb)
    (v : Word64) (m : Memory) :
    (setGeneralPort c.wb w i v).run c m = .ok (setMemory c w i v m, none) := by
  obtain ⟨h8, h64⟩ := wb_bounds c
  have hb := locate_b_lt (by omega) h1 hi
  have ha : (locate c.wb w i).a < c.bufWords := by have := locate_a_le_b c.wb w i h1; omega
  unfold setGeneralPort setMemory
  dsimp only
  split
  · rw [run_read ha, run_write ha, run_done]
  · rw [run_read ha, run_write ha, run_read hb, run_write hb, run_done]

theorem locate_one (wb i : Nat) :
    locate wb 1 i = { j := i, a := i / wb, b := i / wb, da := i % wb } := by
  simp [locate]

theorem setBitPort_run {c : Config} {i : Nat} (hi : i + 1 ≤ c.bufWords * c.wb) (v : Word64) (m : Memory) :
    (setBitPort c.wb i v).run c m = .ok (setMemory c 1 i v m, none) := by
  obtain ⟨h8, h64⟩ := wb_bounds c
  have hk : i / c.wb < c.bufWords := by rw [Nat.div_lt_iff_lt_mul (by omega)]; omega
  unfold setBitPort setMemory
  dsimp only
  rw [run_read hk, run_write hk, run_done, locate_one, if_pos rfl,
    setBitWord_eq h8 (Nat.mod_lt _ (by omega))]

/-- SET after its checks, whichever path it takes (40_codec.md R88). -/
theorem setPort_run {c : Config} {w i : Nat} (h1 : 1 ≤ w) (hi : (i + 1) * w ≤ c.bufWords * c.wb)
    (v : Word64) (m : Memory) : (setPort c.wb w i v).run c m = .ok (setMemory c w i v m, none) := by
  unfold setPort
  split
  · rename_i h
    subst h
    exact setBitPort_run (by omega) v m
  · exact setGeneralPort_run h1 hi v m

/-- A word SET does not write is kept (40_codec.md R107, R109). -/
theorem setMemory_word_other {c : Config} {w i k : Nat} {m : Memory} (hm : m.wf) (v : Word64)
    (ha : k ≠ (locate c.wb w i).a) (hb : k ≠ (locate c.wb w i).b) :
    (setMemory c w i v m).word c k = m.word c k := by
  unfold setMemory
  dsimp only
  split
  · rw [word_setWord hm, if_neg ha]
  · rw [word_setWord (wf_setWord _ _ hm), if_neg hb, word_setWord hm, if_neg ha]

/-- SET writes exactly the element's bits (40_codec.md R110(a)). -/
theorem setMemory_bit {c : Config} {w i : Nat} {m : Memory} (hm : m.wf) (h1 : 1 ≤ w) (hw : w ≤ c.wb)
    (v : Word64) (p : Nat) :
    (setMemory c w i v m).bit c p =
      if i * w ≤ p ∧ p < i * w + w then v.getLsbD (p - i * w) else m.bit c p := by
  obtain ⟨h8, h64⟩ := wb_bounds c
  have hd := locate_da_lt (wb := c.wb) (by omega) w i
  have hj := locate_offset c.wb w i
  have hp := Nat.div_add_mod p c.wb
  have hpm : p % c.wb < c.wb := Nat.mod_lt _ (by omega)
  rw [Nat.mul_comm] at hp
  unfold Memory.bit
  by_cases hf : (locate c.wb w i).da + w ≤ c.wb
  · have hab := (locate_infix h1 hf).symm
    by_cases hk : p / c.wb = (locate c.wb w i).a
    · rw [hk] at hp
      rw [setMemory, if_pos hab, word_setWord hm, if_pos hk, infixWord_getLsbD h8 h1 hf]
      by_cases hin : (locate c.wb w i).da ≤ p % c.wb ∧ p % c.wb < (locate c.wb w i).da + w
      · rw [if_pos hin, if_pos (by omega), show p % c.wb - (locate c.wb w i).da = p - i * w by omega]
      · rw [if_neg hin, if_neg (by omega), hk]
    · rw [setMemory_word_other hm v hk (by omega), if_neg]
      rintro ⟨hlo, hhi⟩
      obtain ⟨q, hq⟩ : ∃ q, p = i * w + q := ⟨p - i * w, by omega⟩
      rw [hq] at hk
      exact hk (locate_bit_left (by omega)).1
  · have hs := locate_split (by omega) hw (by omega : c.wb < (locate c.wb w i).da + w)
    have hab : (locate c.wb w i).a ≠ (locate c.wb w i).b := by omega
    have hsm : ((locate c.wb w i).a + 1) * c.wb = (locate c.wb w i).a * c.wb + c.wb := Nat.succ_mul _ _
    by_cases hk : p / c.wb = (locate c.wb w i).a
    · rw [hk] at hp
      rw [setMemory, if_neg hab, word_setWord (wf_setWord _ _ hm), if_neg (by omega), word_setWord hm,
        if_pos hk, splitLeftWord_getLsbD hd (by omega)]
      by_cases hin : (locate c.wb w i).da ≤ p % c.wb ∧ p % c.wb < c.wb
      · rw [if_pos hin, if_pos (by omega), show p % c.wb - (locate c.wb w i).da = p - i * w by omega]
      · rw [if_neg hin, if_neg (by omega), hk]
    · by_cases hk2 : p / c.wb = (locate c.wb w i).b
      · rw [hk2, hs] at hp
        rw [setMemory, if_neg hab, word_setWord (wf_setWord _ _ hm), if_pos hk2,
          splitRightWord_getLsbD hd hw (by omega), word_setWord hm, if_neg (Ne.symm hab)]
        by_cases hin : p % c.wb < (locate c.wb w i).da + w - c.wb
        · rw [if_pos hin, if_pos (by omega),
            show c.wb - (locate c.wb w i).da + p % c.wb = p - i * w by omega]
        · rw [if_neg hin, if_neg (by omega), hk2]
      · rw [setMemory_word_other hm v hk hk2, if_neg]
        rintro ⟨hlo, hhi⟩
        obtain ⟨q, hq⟩ : ∃ q, p = i * w + q := ⟨p - i * w, by omega⟩
        rw [hq] at hk hk2
        by_cases hl : (locate c.wb w i).da + q < c.wb
        · exact hk (locate_bit_left hl).1
        · rw [hs] at hk2
          exact hk2 (locate_bit_right (by omega) (by omega) (by omega)).1

end Sys2Proof.Machine
end

