-- ==== Sys2Proof/Laws/Decode.lean ====
section
/-! SUPPORT. The fields of a command word as arithmetic, and everything the decoder can accept. -/

namespace Sys2Proof

theorem op_eq_mod (c : Command) : c.op = c.cmd.toNat % 16 := by
  simp [Command.op]

theorem w_eq_div_mod (c : Command) : c.w = c.cmd.toNat / 16 % 128 := by
  simp [Command.w, Nat.shiftRight_eq_div_pow]

theorem rsv_eq_div (c : Command) : c.rsv = c.cmd.toNat / 2 ^ 11 := by
  have := c.cmd.isLt
  simp [Command.rsv, Nat.shiftRight_eq_div_pow]
  omega

/-- If the decoder accepts, the reserved field is clear and OP names the instruction (30_encoding.md R69). -/
theorem decode_ok {c : Command} {i : Instr} (h : decode c = .ok i) :
    c.rsv = 0 ∧
      ((c.op = 1 ∧ i = .get c.w c.idx.toNat) ∨ (c.op = 2 ∧ i = .set c.w c.idx.toNat c.val) ∨
       (c.op = 3 ∧ i = .packs c.w c.idx.toNat) ∨ (c.op = 4 ∧ c.w = 0 ∧ i = .wsel c.idx.toNat)) := by
  unfold decode at h
  split_ifs at h <;> simp_all

end Sys2Proof
end

