-- ==== Sys2Proof/Laws/PerInstr.lean ====
section
/-! SUPPORT. Facts that hold of every instruction as syntax, one lemma per constructor. -/

namespace Sys2Proof.Laws.EncodedFields

/-- The command of a well-formed instruction has an operation of the map and a clear reserved field
(30_encoding.md R62, R66). -/
def Statement (i : Instr) : Prop :=
  i.wellFormed = true → (encode i).rsv = 0 ∧ 1 ≤ (encode i).op ∧ (encode i).op ≤ 4

/-- The three fields of a command word 16 × w + OP (30_encoding.md R60, R73). -/
theorem fields_of_word {w o : Nat} (hw : w < 2 ^ 7) (ho : o < 16) (x v : Word64) :
    Command.op ⟨BitVec.ofNat 16 (16 * w + o), x, v⟩ = o ∧
    Command.w ⟨BitVec.ofNat 16 (16 * w + o), x, v⟩ = w ∧
    Command.rsv ⟨BitVec.ofNat 16 (16 * w + o), x, v⟩ = 0 := by
  refine ⟨?_, ?_, ?_⟩ <;>
    simp only [Command.op, Command.w, Command.rsv, BitVec.extractLsb'_toNat, BitVec.toNat_ofNat,
      Nat.shiftRight_eq_div_pow] <;>
    omega

theorem get (w i : Nat) : Statement (.get w i) := by
  intro h
  simp only [Instr.wellFormed, widthEncodable, Bool.and_eq_true, decide_eq_true_eq] at h
  obtain ⟨ho, -, hr⟩ := fields_of_word (o := 1) h.1 (by omega) (BitVec.ofNat 64 i) 0
  exact ⟨hr, by rw [encode, ho], by rw [encode, ho]; omega⟩

theorem set (w i : Nat) (v : Word64) : Statement (.set w i v) := by
  intro h
  simp only [Instr.wellFormed, widthEncodable, Bool.and_eq_true, decide_eq_true_eq] at h
  obtain ⟨ho, -, hr⟩ := fields_of_word (o := 2) h.1 (by omega) (BitVec.ofNat 64 i) v
  exact ⟨hr, by rw [encode, ho]; omega, by rw [encode, ho]; omega⟩

theorem packs (w n : Nat) : Statement (.packs w n) := by
  intro h
  simp only [Instr.wellFormed, widthEncodable, Bool.and_eq_true, decide_eq_true_eq] at h
  obtain ⟨ho, -, hr⟩ := fields_of_word (o := 3) h.1 (by omega) (BitVec.ofNat 64 n) 0
  exact ⟨hr, by rw [encode, ho]; omega, by rw [encode, ho]; omega⟩

theorem wsel (n : Nat) : Statement (.wsel n) := by
  intro _
  refine ⟨?_, ?_, ?_⟩ <;> simp [encode, Command.op, Command.rsv]

end Sys2Proof.Laws.EncodedFields
end

