-- ==== Sys2Proof/Laws/Sizing.lean ====
section
/-! SUPPORT. The arithmetic of PACKS and WSEL. -/

namespace Sys2Proof.Machine

/-- The least number of words that holds `n` elements of width `w` (41_sizing.md R120). -/
theorem packsRequired_le_iff {wb : Nat} (h : 0 < wb) (n w q : Nat) :
    packsRequired wb n w ≤ q ↔ n * w ≤ q * wb := by
  rw [packsRequired, ← Nat.lt_succ_iff, Nat.div_lt_iff_lt_mul h, Nat.succ_mul]
  omega

/-- The PACKS result fits RES (41_sizing.md R122). -/
theorem packsRequired_le {wb n w : Nat} (h : 0 < wb) (hw : w ≤ wb) : packsRequired wb n w ≤ n :=
  (packsRequired_le_iff h n w n).2 (Nat.mul_le_mul_left n hw)

theorem widthSelect_le (n : Nat) : widthSelect n ≤ 64 := by
  unfold widthSelect
  split_ifs <;> omega

end Sys2Proof.Machine
end

