-- ==== Sys2Proof/Laws/Step.lean ====
section
/-! SUPPORT. What each meaning, each HOST action and one step can do, said once: if it answers a next state, one
of these cases holds. -/

namespace Sys2Proof.Machine

/-- Everything GET can do. -/
theorem execGet_next {w i : Nat} {s t : State} (h : execGet w i s = .next t) :
    s.fault = none ∧
      ((∃ f, checkCodec s.cfg w i = some f ∧ t = s.raise f) ∨
       (checkCodec s.cfg w i = none ∧ ∃ v : Word64, t = { s with res := some v } ∧
          ∀ p, v.getLsbD p = (decide (p < w) && s.bufBit (i * w + p)))) := by
  obtain ⟨hf, h⟩ := ifRunning_next h
  refine ⟨hf, ?_⟩
  rcases unlessFault_next h with ⟨f, hc, ht⟩ | ⟨hc, h⟩
  · exact .inl ⟨f, hc, ht⟩
  · obtain ⟨⟨⟨h1, hw⟩, -⟩, hi⟩ := checkCodec_eq_none.1 hc
    obtain ⟨v, hr, hv⟩ := getPort_bits h1 hw hi s.buf
    rw [runPort_of_ok hr] at h
    injection h with h
    exact .inr ⟨hc, v, h.symm, hv⟩

/-- Everything SET can do. -/
theorem execSet_next {w i : Nat} {v : Word64} {s t : State} (h : execSet w i v s = .next t) :
    s.fault = none ∧
      ((∃ f, checkCodec s.cfg w i = some f ∧ t = s.raise f) ∨
       (checkCodec s.cfg w i = none ∧ t = { s with buf := setMemory s.cfg w i v s.buf })) := by
  obtain ⟨hf, h⟩ := ifRunning_next h
  refine ⟨hf, ?_⟩
  rcases unlessFault_next h with ⟨f, hc, ht⟩ | ⟨hc, h⟩
  · exact .inl ⟨f, hc, ht⟩
  · obtain ⟨⟨⟨h1, -⟩, -⟩, hi⟩ := checkCodec_eq_none.1 hc
    rw [runPort_of_ok (setPort_run h1 hi v s.buf)] at h
    injection h with h
    exact .inr ⟨hc, h.symm⟩

/-- Everything PACKS can do. -/
theorem execPacks_next {w n : Nat} {s t : State} (h : execPacks w n s = .next t) :
    s.fault = none ∧
      ((∃ f, checkWidthRange s.cfg w = some f ∧ t = s.raise f) ∨
       (checkWidthRange s.cfg w = none ∧
          t = s.writeRes (BitVec.ofNat 64 (packsRequired s.cfg.wb n w)))) := by
  obtain ⟨hf, h⟩ := ifRunning_next h
  refine ⟨hf, (unlessFault_next h).imp id fun ⟨hc, h⟩ => ⟨hc, ?_⟩⟩
  injection h with h
  exact h.symm

/-- Everything WSEL can do. -/
theorem execWsel_next {n : Nat} {s t : State} (h : execWsel n s = .next t) :
    s.fault = none ∧
      ((∃ f, checkWsel n = some f ∧ t = s.raise f) ∨
       (checkWsel n = none ∧ t = s.writeRes (BitVec.ofNat 64 (widthSelect n)))) := by
  obtain ⟨hf, h⟩ := ifRunning_next h
  refine ⟨hf, (unlessFault_next h).imp id fun ⟨hc, h⟩ => ⟨hc, ?_⟩⟩
  injection h with h
  exact h.symm

/-- A command changes the buffer by SET alone, and otherwise only RES or FAULT. -/
theorem exec_next {i : Instr} {s t : State} (h : exec i s = .next t) :
    s.fault = none ∧
      ((∃ f, t = s.raise f) ∨ (∃ v, t = s.writeRes v) ∨
       (∃ w n v, i = .set w n v ∧ checkCodec s.cfg w n = none ∧
          t = { s with buf := setMemory s.cfg w n v s.buf })) := by
  cases i with
  | get w i =>
    obtain ⟨hf, ⟨f, -, ht⟩ | ⟨-, v, ht, -⟩⟩ := execGet_next h
    · exact ⟨hf, .inl ⟨f, ht⟩⟩
    · exact ⟨hf, .inr (.inl ⟨v, ht⟩)⟩
  | set w i v =>
    obtain ⟨hf, ⟨f, -, ht⟩ | ⟨hc, ht⟩⟩ := execSet_next h
    · exact ⟨hf, .inl ⟨f, ht⟩⟩
    · exact ⟨hf, .inr (.inr ⟨w, i, v, rfl, hc, ht⟩)⟩
  | packs w n =>
    obtain ⟨hf, ⟨f, -, ht⟩ | ⟨-, ht⟩⟩ := execPacks_next h
    · exact ⟨hf, .inl ⟨f, ht⟩⟩
    · exact ⟨hf, .inr (.inl ⟨_, ht⟩)⟩
  | wsel n =>
    obtain ⟨hf, ⟨f, -, ht⟩ | ⟨-, ht⟩⟩ := execWsel_next h
    · exact ⟨hf, .inl ⟨f, ht⟩⟩
    · exact ⟨hf, .inr (.inl ⟨_, ht⟩)⟩

/-- The memory SET leaves keeps the canonical form and stays inside BUF. -/
theorem setMemory_keeps {c : Config} {w i : Nat} {v : Word64} {m : Memory} (h : checkCodec c w i = none)
    (hw : m.wf) (hs : m.within (byteSize c)) :
    (setMemory c w i v m).wf ∧ (setMemory c w i v m).within (byteSize c) := by
  obtain ⟨⟨⟨h1, -⟩, -⟩, hi⟩ := checkCodec_eq_none.1 h
  exact run_keeps (setPort_run h1 hi v m) hw hs

/-- Everything a HOST action can do. -/
theorem perform_next {a : HostAction} {s t : State} (h : perform a s = .next t) :
    s.fault = none ∧
      ((∃ f, t = s.raise f) ∨
       (∃ c i, a = .issue c ∧ decode c = .ok i ∧ exec i s = .next t) ∨
       (∃ v, t = { s with reads := v :: s.reads }) ∨
       (∃ k v, a = .writeBuf k v ∧ k < s.cfg.bufWords ∧
          t = { s with buf := s.buf.setWord s.cfg k (v.setWidth s.cfg.wb) }) ∨
       (a = .reset ∧ t = { s with res := none })) := by
  cases a with
  | issue c =>
    obtain ⟨hf, h⟩ := ifRunning_next h
    refine ⟨hf, ?_⟩
    split at h
    · injection h with h
      exact .inl ⟨_, h.symm⟩
    · rename_i i hd
      exact .inr (.inl ⟨c, i, rfl, hd, h⟩)
  | readRes =>
    obtain ⟨hf, h⟩ := ifRunning_next h
    refine ⟨hf, ?_⟩
    split at h <;> injection h with h
    · exact .inr (.inr (.inl ⟨_, h.symm⟩))
    · exact .inl ⟨_, h.symm⟩
  | readBuf k =>
    obtain ⟨hf, h⟩ := ifRunning_next h
    refine ⟨hf, ?_⟩
    split at h
    · injection h with h
      exact .inr (.inr (.inl ⟨_, h.symm⟩))
    · cases h
  | writeBuf k v =>
    obtain ⟨hf, h⟩ := ifRunning_next h
    refine ⟨hf, ?_⟩
    split at h
    · rename_i hk
      split at h
      · injection h with h
        exact .inr (.inr (.inr (.inl ⟨k, v, rfl, hk, h.symm⟩)))
      · cases h
    · cases h
  | reset =>
    obtain ⟨hf, h⟩ := ifRunning_next h
    injection h with h
    exact ⟨hf, .inr (.inr (.inr (.inr ⟨rfl, h.symm⟩)))⟩

/-- Everything one step can do: wait, or take HOST's next action whole. -/
theorem step_next {s t : State} (h : step s = .next t) :
    s.fault = none ∧
      ((s.pending = [] ∧ t = s) ∨
       (∃ a rest, s.pending = a :: rest ∧ perform a { s with pending := rest } = .next t)) := by
  obtain ⟨hf, h⟩ := ifRunning_next h
  refine ⟨hf, ?_⟩
  split at h
  · rename_i hp
    injection h with h
    exact .inl ⟨hp, h.symm⟩
  · rename_i a rest hp
    exact .inr ⟨a, rest, hp, h⟩

/-- The check of GET and SET passes exactly where the spec's preconditions hold. -/
theorem checkCodec_of_accepts {c : Config} {w i : Nat} (h : CodecAccepts c w i) : checkCodec c w i = none :=
  checkCodec_eq_none.2 ⟨⟨⟨h.1, h.2.1⟩, h.2.2.1⟩, h.2.2.2⟩

/-- A running state takes HOST's next action. -/
theorem step_of_pending {s : State} {a : HostAction} {rest : List HostAction} (hf : s.fault = none)
    (hp : s.pending = a :: rest) : step s = perform a { s with pending := rest } := by
  rw [step, ifRunning_of_none hf, hp]

/-- A running state takes the command HOST issues: decode, then the meaning or the fault. -/
theorem step_of_issue {s : State} {c : Command} {rest : List HostAction} (hf : s.fault = none)
    (hp : s.pending = .issue c :: rest) :
    step s = match decode c with
      | .error r => .next ({ s with pending := rest }.raise (rejectFault r))
      | .ok i => exec i { s with pending := rest } := by
  rw [step_of_pending hf hp]
  exact ifRunning_of_none (s := { s with pending := rest }) hf

end Sys2Proof.Machine
end

