-- ==== Sys2Proof/Tests/Slice0.lean ====
section
/-! SUPPORT. The model's own tests: the smoke of WellFormed, the decoding of words written out from 30_encoding.md,
vectors of 95_test_vectors.md (named beside each test), and a witness for the hypotheses of each statement. -/

namespace Sys2Proof.Tests

open Sys2Proof.Machine

/-! ### Helpers -/

/-- An instance with `n` words of the given width, FIXED_W NONE, LITTLE. -/
def cfg (b : WordBits) (n : Nat) : Config :=
  { wordBits := b, fixedW := none, bufWords := n, byteOrder := .little, latency := 1, debugChecker := false }

/-- A launch state at WB = 8 with BUF = [x, y]. -/
def st8 (x y : Byte) : State := State.powerUp (cfg .w8 2) (Memory.writeByte (Memory.writeByte [] 0 x) 1 y)

/-- A launch state at WB = 64 with BUF = [x]. -/
def st64 (x : Word64) : State :=
  State.powerUp (cfg .w64 1) (Memory.setWord (cfg .w64 1) [] 0 x)

/-- HOST's next action. -/
def hostDoes (s : State) (a : HostAction) : State := { s with pending := [a] }

/-- The next state, if there is one. -/
def after (o : Host.Outcome State Fault Refusal) : Option State :=
  match o with
  | .next t => some t
  | _ => none

/-- RES in the next state. -/
def resAfter (o : Host.Outcome State Fault Refusal) : Option Word64 := (after o).bind (·.res)

/-- BUF in the next state. -/
def bufAfter (o : Host.Outcome State Fault Refusal) : Option Memory := (after o).map (·.buf)

/-- FAULT in the next state. -/
def faultAfter (o : Host.Outcome State Fault Refusal) : Option Fault := (after o).bind (·.fault)

/-! ### WellFormed refuses -/

theorem test_wellFormed_get_width : (Instr.get 128 0).wellFormed = false := by decide
theorem test_wellFormed_get_index : (Instr.get 1 (2 ^ 64)).wellFormed = false := by decide
theorem test_wellFormed_set_width : (Instr.set 128 0 0).wellFormed = false := by decide
theorem test_wellFormed_set_index : (Instr.set 1 (2 ^ 64) 0).wellFormed = false := by decide
theorem test_wellFormed_packs_width : (Instr.packs 128 0).wellFormed = false := by decide
theorem test_wellFormed_packs_count : (Instr.packs 1 (2 ^ 64)).wellFormed = false := by decide
theorem test_wellFormed_wsel_bits : (Instr.wsel (2 ^ 64)).wellFormed = false := by decide
theorem test_wellFormed_accepts : (Instr.set 127 (2 ^ 64 - 1) 0).wellFormed = true := by decide

/-! ### Decode: the patterns of 30_encoding.md R66 and the vectors DEC of 95_test_vectors.md -/

-- 00000 WWWWWWW 0001 with W = 13 (DEC-1)
theorem test_decode_get : decode ⟨0b0000000011010001, 5, 0⟩ = .ok (.get 13 5) := by decide
-- 00000 WWWWWWW 0010 with W = 64 (DEC-11)
theorem test_decode_set : decode ⟨0b0000010000000010, 7, 9⟩ = .ok (.set 64 7 9) := by decide
-- 00000 WWWWWWW 0011 with W = 127, every W bit set
theorem test_decode_packs : decode ⟨0b0000011111110011, 20, 0⟩ = .ok (.packs 127 20) := by decide
-- 0000000000000100 (DEC-4)
theorem test_decode_wsel : decode ⟨0b0000000000000100, 13, 0⟩ = .ok (.wsel 13) := by decide
theorem test_decode_zero : decode ⟨0x0000, 1, 1⟩ = .error .opcode := by decide -- DEC-14
theorem test_decode_opcode_first : decode ⟨0xF80F, 0, 0⟩ = .error .opcode := by decide -- DEC-17
theorem test_decode_rsv : decode ⟨0x0801, 0, 0⟩ = .error .reservedBits := by decide -- DEC-18
theorem test_decode_wsel_width : decode ⟨0x0014, 0, 0⟩ = .error .wselWidth := by decide -- DEC-20
theorem test_decode_wsel_rsv : decode ⟨0x7FF4, 0, 0⟩ = .error .reservedBits := by decide -- DEC-21
theorem test_encode_set : encode (.set 13 4 0x1FFF) = ⟨0x00D2, 4, 0x1FFF⟩ := by decide -- SET-22

theorem test_tableWord_get : decodeTableWord 16 0x00D1 = some (.get 13 0) := by decide
theorem test_tableWord_wsel : decodeTableWord 16 0x0004 = some (.wsel 0) := by decide
theorem test_tableWord_reserved : decodeTableWord 16 0x0000 = none := by decide
theorem test_withFetchWord_runs : resAfter (step (State.reset.withFetchWord 16 0x0004)) = some 8 := by decide

/-! ### GET -/

theorem test_get_split : resAfter (exec (.get 5 1) (st8 0xA5 0x3E)) = some 0x15 := by decide -- GET-1
theorem test_get_bit : resAfter (exec (.get 1 9) (st8 0xA5 0x3E)) = some 1 := by decide -- GET-7

/-! ### SET -/

theorem test_set_split : bufAfter (exec (.set 5 1 21) (st8 0xFF 0xFF)) = some [(0, 0xBF), (1, 0xFE)] := by decide -- SET-5
-- SET-11: width 1 stores VAL[0] = 0 of VAL = 2
theorem test_set_bit :
    (after (exec (.set 1 5 2) (st64 0xFFFFFFFFFFFFFFFF))).map (fun t => (t.buf.word (cfg .w64 1) 0).toNat)
      = some 0xFFFFFFFFFFFFFFDF := by decide

/-! ### PACKS, WSEL -/

theorem test_packs_rounds_up : resAfter (exec (.packs 3 3) (st8 0 0)) = some 2 := by decide -- PACKS-7
theorem test_packs_largest :
    resAfter (exec (.packs 64 0xFFFFFFFFFFFFFFFF) (st64 0)) = some 0xFFFFFFFFFFFFFFFF := by decide -- PACKS-13
theorem test_wsel_boundary : resAfter (exec (.wsel 9) (st8 0 0)) = some 16 := by decide -- WSEL-4
theorem test_wsel_range : faultAfter (exec (.wsel 65) (st8 0 0)) = some .fWselRange := by decide -- WSEL-12

/-! ### Faults and HOST actions -/

theorem test_fault_width_before_index : faultAfter (exec (.get 0 1000) (st8 0xA5 0x3E)) = some .fWidth := by decide -- FLT-13
theorem test_fault_index : faultAfter (exec (.set 3 5 1) (st8 0 0)) = some .fIndex := by decide -- FLT-18
theorem test_fault_index_last_legal : bufAfter (exec (.set 3 4 1) (st8 0 0)) = some [(1, 0x10)] := by decide -- FLT-19
-- FLT-23: the last word of a buffer of 2^64 words
theorem test_get_last_word :
    resAfter (exec (.get 64 0xFFFFFFFFFFFFFFFF) { State.reset with
      buf := Memory.setWord defaultConfig [] (2 ^ 64 - 1) 0x1234 }) = some 0x1234 := by decide
theorem test_host_read_res_unwritten : faultAfter (step (hostDoes (st8 0xA5 0x3E) .readRes)) = some .fResUnwritten := by
  decide -- HOST-1
theorem test_host_read_buf : (after (step (hostDoes (st8 0xA5 0x3E) (.readBuf 1)))).map (·.reads) = some [0x3E] := by
  decide -- HOST-4
theorem test_fault_codes : [Fault.fOpcode, .fReserved, .fWidth, .fIndex, .fWselRange, .fResUnwritten].map faultCode
    = [1, 2, 3, 4, 5, 6] := by decide -- R140

-- Under BIG, byte 0 of a 16-bit word is its bits 15..8 (20_memory.md R43)
theorem test_big_bytes :
    Memory.setWord { cfg .w16 1 with byteOrder := .big } [] 0 0x1234 = [(0, 0x12), (1, 0x34)] := by decide

/-! ### Witnesses: a concrete case of the hypotheses of each statement -/

/-- WB = 8, BUF = [0xA5, 0x3E], running. -/
def w8 : State := st8 0xA5 0x3E

theorem accepts_split : CodecAccepts w8.cfg 5 1 := ⟨by decide, by decide, (fun _ h => by cases h), by decide⟩
theorem accepts_last : CodecAccepts w8.cfg 5 2 := ⟨by decide, by decide, (fun _ h => by cases h), by decide⟩
theorem accepts_infix : CodecAccepts w8.cfg 4 1 := ⟨by decide, by decide, (fun _ h => by cases h), by decide⟩
theorem accepts_bit : CodecAccepts w8.cfg 1 15 := ⟨by decide, by decide, (fun _ h => by cases h), by decide⟩
theorem accepts_full : CodecAccepts w8.cfg w8.cfg.wb 1 := ⟨by decide, by decide, (fun _ h => by cases h), by decide⟩

theorem witness_DecodeEncode : (Instr.set 127 (2 ^ 64 - 1) 5).wellFormed = true := by decide
theorem witness_EncodeDecode : decode ⟨0x00D2, 3, 5⟩ = .ok (.set 13 3 5) := by decide
theorem witness_OpcodeMap_fault :
    ((0x0005 : BitVec 16) &&& 0xF80F ≠ 1 ∧ (0x0005 : BitVec 16) &&& 0xF80F ≠ 2 ∧
      (0x0005 : BitVec 16) &&& 0xF80F ≠ 3 ∧ (0x0005 : BitVec 16) ≠ 4) ∧
    (hostDoes w8 (.issue ⟨0x0005, 0, 0⟩)).fault = none := by decide
theorem witness_ReservedOpcode_low : (⟨0x0000, 0, 0⟩ : Command).cmd.toNat % 16 = 0 := by decide
theorem witness_ReservedOpcode_high :
    (hostDoes w8 (.issue ⟨0xFFF5, 0, 0⟩)).fault = none ∧ 5 ≤ (⟨0xFFF5, 0, 0⟩ : Command).cmd.toNat % 16 := by decide
theorem witness_ReservedField_rsv :
    1 ≤ (⟨0x0801, 0, 0⟩ : Command).cmd.toNat % 16 ∧ (⟨0x0801, 0, 0⟩ : Command).cmd.toNat % 16 ≤ 4 ∧
      (⟨0x0801, 0, 0⟩ : Command).cmd.toNat / 2 ^ 11 ≠ 0 := by decide
theorem witness_ReservedField_wsel :
    (hostDoes w8 (.issue ⟨0x0014, 0, 0⟩)).fault = none ∧ (⟨0x0014, 0, 0⟩ : Command).cmd.toNat % 16 = 4 ∧
      (⟨0x0014, 0, 0⟩ : Command).cmd.toNat / 16 % 128 ≠ 0 := by decide
theorem witness_ValReadBySetOnly_other : (⟨0x0051, 1, 0⟩ : Command).cmd.toNat % 16 ≠ 2 := by decide
theorem witness_ValReadBySetOnly_set : (⟨0x0052, 1, 21⟩ : Command).cmd.toNat % 16 = 2 ∧
    ∀ p, p < (⟨0x0052, 1, 21⟩ : Command).cmd.toNat / 16 % 128 →
      (53 : Word64).getLsbD p = (⟨0x0052, 1, 21⟩ : Command).val.getLsbD p := by decide
theorem witness_WidthCheck_low : w8.fault = none ∧ 0 < 1 := by decide
theorem witness_WidthCheck_high : w8.fault = none ∧ w8.cfg.wb < 9 := by decide
theorem witness_WidthCheck_fixed : ∃ f, ({ cfg .w64 2 with fixedW := some 13 } : Config).fixedW = some f ∧ 12 ≠ f :=
  ⟨13, rfl, by decide⟩
theorem witness_WidthCheck_packs : 1 ≤ 8 ∧ 8 ≤ w8.cfg.wb := by decide
theorem witness_IndexCheck_over : w8.fault = none ∧ 1 ≤ 3 ∧ 3 ≤ w8.cfg.wb ∧ w8.cfg.fixedW = none ∧
    w8.cfg.bufWords * w8.cfg.wb < (5 + 1) * 3 := by decide
theorem witness_IndexCheck_empty : (State.powerUp (cfg .w64 0) []).fault = none ∧ 1 ≤ (cfg .w64 0).wb ∧
    (cfg .w64 0).fixedW = none ∧ (cfg .w64 0).bufWords = 0 := by decide
theorem witness_IndexCheck_last : w8.fault = none ∧ (4 + 1) * 3 ≤ w8.cfg.bufWords * w8.cfg.wb := by decide
theorem witness_WselRange : w8.fault = none ∧ 64 < 65 := by decide
theorem witness_UnwrittenRes : (hostDoes w8 .readRes).fault = none ∧ (hostDoes w8 .readRes).res = none ∧
    (hostDoes w8 .readRes).pending = .readRes :: [] := by decide
theorem witness_FaultPriority : (hostDoes w8 (.issue ⟨0x0091, 0, 0⟩)).fault = none ∧
    (hostDoes w8 (.issue ⟨0x0091, 0, 0⟩)).pending = .issue ⟨0x0091, 0, 0⟩ :: [] ∧
    firstFault w8.cfg 1 9 0 0 = some .fWidth := by decide
-- One command for each outcome of the priority order (FLT-1, FLT-6, FLT-8, FLT-13, FLT-14, FLT-18, WSEL-12, WSEL-11)
theorem witness_FaultPriority_clauses :
    firstFault w8.cfg 0 0 31 0 = some .fOpcode ∧ firstFault w8.cfg 1 0 16 0 = some .fReserved ∧
    firstFault w8.cfg 4 1 0 100 = some .fReserved ∧ firstFault w8.cfg 1 0 0 1000 = some .fWidth ∧
    firstFault { cfg .w64 2 with fixedW := some 13 } 1 12 0 0 = some .fWidth ∧
    firstFault w8.cfg 2 3 0 5 = some .fIndex ∧ firstFault w8.cfg 4 0 0 65 = some .fWselRange ∧
    firstFault w8.cfg 4 0 0 64 = none := by decide
theorem witness_Quiescent : (w8.raise .fIndex).fault = some .fIndex := by decide
theorem witness_ResetAction : (hostDoes w8 .reset).fault = none ∧ (hostDoes w8 .reset).pending = .reset :: [] := by decide
theorem witness_EveryPowerUpContent : (cfg .w64 3).wf = true := by decide
theorem witness_HostByteView : 3 < (cfg .w32 1).wordBits.bytes ∧ 7 < 8 := by decide
theorem witness_LittleByteOrder : (cfg .w64 1).byteOrder = .little ∧ 7 < 8 := by decide
/-- BUF = [0x0102] at WB = 16, LITTLE. -/
def w16 : State := State.powerUp (cfg .w16 1) [(0, 0x02), (1, 0x01)]
theorem witness_ByteOrder : w16.wf = true ∧ (w16.onByteOrder .big [(0, 0x01), (1, 0x02)]).wf = true ∧
    (∀ p, p < 16 → (w16.onByteOrder .big [(0, 0x01), (1, 0x02)]).bufBit p = w16.bufBit p) ∧
    resAfter (exec (.get 4 2) w16) = some 1 := by decide
theorem witness_HostAccesses_res : (hostDoes { w8 with res := some 21 } .readRes).fault = none ∧
    ({ w8 with res := some 21 } : State).res = some 21 := by decide
theorem witness_HostAccesses_buf : 1 < w8.cfg.bufWords ∧ (0xFF : Word64).toNat < 2 ^ w8.cfg.wb ∧
    (hostDoes w8 (.writeBuf 1 0xFF)).wf = true := by decide
theorem witness_HostAccesses_outside : w8.cfg.bufWords ≤ 2 ∧ (hostDoes w8 (.readBuf 2)).fault = none := by decide
theorem witness_BlockWaits : w8.fault = none ∧ w8.pending = [] := by decide
theorem witness_StepRunsDecoded : (hostDoes w8 (.issue ⟨0x0051, 1, 0⟩)).fault = none ∧
    decode ⟨0x0051, 1, 0⟩ = .ok (.get 5 1) := by decide
theorem witness_GetAndSizingFrame : ∃ t, exec (.get 5 1) w8 = .next t ∧ t.fault = none := ⟨_, rfl, rfl⟩
theorem witness_SetFrame : w8.wf = true ∧ bufAfter (exec (.set 5 1 0) w8) = some [(0, 0x05), (1, 0x3C)] := by decide
theorem witness_CodecDoesNotReadRes_get : ∃ t, exec (.get 1 9) w8 = .next t ∧ t.fault = none := ⟨_, rfl, rfl⟩
theorem witness_CodecDoesNotReadRes_set : ∃ t, exec (.set 5 1 0) w8 = .next t := ⟨_, rfl⟩
theorem witness_step : w8.wf = true ∧ resAfter (step (hostDoes w8 (.issue ⟨0x0051, 1, 0⟩))) = some 21 := by decide
theorem witness_ResIsWrittenBy_kept : resAfter (step (hostDoes { w8 with res := some 21 } (.issue ⟨0x0052, 1, 0⟩)))
    = some 21 := by decide
theorem witness_ResIsWrittenBy_host : resAfter (step (hostDoes { w8 with res := some 21 } (.readBuf 0))) = some 21 := by
  decide
theorem witness_Mask : 1 ≤ 64 ∧ 64 ≤ (cfg .w64 1).wb := by decide
theorem witness_LowMask : 63 < (cfg .w64 1).wb := by decide
theorem witness_HighMask : 1 ≤ 4 ∧ 4 + 4 ≤ (cfg .w8 1).wb := by decide
theorem witness_Locate_split : (locate 8 5 1).a ≠ (locate 8 5 1).b ∧ (1 + 1) * 5 ≤ (cfg .w8 2).bufWords * (cfg .w8 2).wb := by
  decide
theorem witness_Locate_infix : (locate 8 8 1).a = (locate 8 8 1).b ∧ 8 ≤ (cfg .w8 2).wb := by decide
theorem witness_Aligned : 1 ≤ 4 ∧ (cfg .w8 1).wb % 4 = 0 := by decide
theorem witness_FullWord : w8.fault = none ∧ CodecAccepts w8.cfg w8.cfg.wb 1 := ⟨rfl, accepts_full⟩
theorem witness_Wrapping : w8.cfg.bufWords * w8.cfg.wb ≤ 2 ^ 64 ∧ CodecAccepts w8.cfg 5 2 := ⟨by decide, accepts_last⟩
theorem witness_Get : w8.fault = none ∧ CodecAccepts w8.cfg 5 2 := ⟨rfl, accepts_last⟩
theorem witness_GetSingleBit : w8.fault = none ∧ CodecAccepts w8.cfg 1 15 := ⟨rfl, accepts_bit⟩
theorem witness_GetGeneral_split : CodecAccepts w8.cfg 5 1 ∧ (locate w8.cfg.wb 5 1).a ≠ (locate w8.cfg.wb 5 1).b :=
  ⟨accepts_split, by decide⟩
theorem witness_Set : w8.fault = none ∧ w8.wf = true ∧ CodecAccepts w8.cfg 5 2 := ⟨rfl, by decide, accepts_last⟩
theorem witness_Infix : w8.wf = true ∧ CodecAccepts w8.cfg 4 1 ∧ (locate w8.cfg.wb 4 1).a = (locate w8.cfg.wb 4 1).b :=
  ⟨by decide, accepts_infix, by decide⟩
theorem witness_Split : w8.wf = true ∧ CodecAccepts w8.cfg 5 1 ∧ (locate w8.cfg.wb 5 1).a ≠ (locate w8.cfg.wb 5 1).b :=
  ⟨by decide, accepts_split, by decide⟩
theorem witness_RoundTrip : w8.wf = true ∧ CodecAccepts w8.cfg 5 1 ∧ ∃ t, exec (.set 5 1 21) w8 = .next t :=
  ⟨by decide, accepts_split, _, rfl⟩
theorem witness_Independence : w8.wf = true ∧ CodecAccepts w8.cfg 5 1 ∧ CodecAccepts w8.cfg 5 2 ∧ 2 ≠ 1 ∧
    ∃ t, exec (.set 5 1 21) w8 = .next t := ⟨by decide, accepts_split, accepts_last, by decide, _, rfl⟩
theorem witness_PathsAgree : 15 + 1 ≤ (cfg .w8 2).bufWords * (cfg .w8 2).wb := by decide
theorem witness_FixedWidth : w8.cfg.fixedW = none ∧ (∃ t, exec (.get 5 1) w8 = .next t) ∧
    ∃ t, exec (.set 5 1 21) w8 = .next t := ⟨rfl, ⟨_, rfl⟩, _, rfl⟩
theorem witness_Packs : w8.fault = none ∧ 1 ≤ 8 ∧ 8 ≤ w8.cfg.wb ∧ 2 ^ 64 - 1 < 2 ^ 64 := by decide
theorem witness_PacksSizes : 1 ≤ 3 ∧ 3 ≤ (cfg .w8 2).wb ∧ (cfg .w8 2).bufWords = packsRequired (cfg .w8 2).wb 3 3 ∧
    checkIndex (cfg .w8 2) 3 4 = none := by decide
theorem witness_WselTable : w8.fault = none ∧ State.reset.fault = none := by decide
theorem witness_Race : w8.buf.wf = true ∧ CodecAccepts w8.cfg 4 1 ∧ CodecAccepts w8.cfg 5 1 :=
  ⟨by decide, accepts_infix, accepts_split⟩

end Sys2Proof.Tests
end

section
/-! PROOFS. Non-interference of LATENCY and the debug checker (00_scope.md R11, 60_exceptions.md R158,
70_reset_and_hazards.md R185): `reconfigure` changes the two, and every operation of the model commutes with it. -/

namespace Sys2Proof.Machine

/-! ### Changing the state an outcome carries -/

/-- Apply `f` to the next state; a fault or a refusal carries none. -/
def mapNext (f : State → State) : Host.Outcome State Fault Refusal → Host.Outcome State Fault Refusal
  | .next t => .next (f t)
  | .fault r => .fault r
  | .refused r => .refused r

@[simp] theorem mapNext_next (f : State → State) (t : State) : mapNext f (.next t) = .next (f t) := rfl
@[simp] theorem mapNext_fault (f : State → State) (r : Fault) : mapNext f (.fault r) = .fault r := rfl
@[simp] theorem mapNext_refused (f : State → State) (r : Refusal) : mapNext f (.refused r) = .refused r := rfl

/-- A change that keeps FAULT passes the guard on FAULT. -/
theorem ifRunning_mapNext {f : State → State} {s : State} {k : Host.Outcome State Fault Refusal}
    (hf : (f s).fault = s.fault) : ifRunning (f s) (mapNext f k) = mapNext f (ifRunning s k) := by
  cases h : s.fault with
  | none => rw [ifRunning_of_none h, ifRunning_of_none (hf.trans h)]
  | some r => rw [ifRunning_of_some h, ifRunning_of_some (hf.trans h), mapNext_fault]

/-- A change that commutes with raising a fault passes a check. -/
theorem unlessFault_mapNext {f : State → State} {s : State} (chk : Option Fault)
    {k : Host.Outcome State Fault Refusal} (hr : ∀ r, (f s).raise r = f (s.raise r)) :
    unlessFault (f s) chk (mapNext f k) = mapNext f (unlessFault s chk k) := by
  cases chk with
  | none => rfl
  | some r => simp [hr]

/-! ### The change, and what it leaves -/

/-- The parameters with LATENCY `n` and the debug checker `d`. -/
def Config.reconfigure (n : Nat) (d : Bool) (c : Config) : Config := { c with latency := n, debugChecker := d }

/-- The state with LATENCY `n` and the debug checker `d`. -/
def State.reconfigure (n : Nat) (d : Bool) (s : State) : State := { s with cfg := Config.reconfigure n d s.cfg }

variable (n : Nat) (d : Bool)

theorem word_reconfigure (c : Config) (m : Memory) (k : Nat) :
    m.word (Config.reconfigure n d c) k = m.word c k := rfl

theorem storeBytes_reconfigure (c : Config) (k : Nat) (v : BitVec c.wb) (j : Nat) (m : Memory) :
    Memory.storeBytes (Config.reconfigure n d c) k v j m = Memory.storeBytes c k v j m := by
  induction j with
  | zero => rfl
  | succ j ih => exact congrArg (Memory.writeByte · (byteAddr c k j) (v.extractLsb' (8 * j) 8)) ih

theorem setWord_reconfigure (c : Config) (m : Memory) (k : Nat) (v : BitVec c.wb) :
    m.setWord (Config.reconfigure n d c) k v = m.setWord c k v :=
  storeBytes_reconfigure n d c k v c.wordBits.bytes m

/-- A port program moves the same words, by induction on its accesses. -/
theorem run_reconfigure (c : Config) (p : PortProg c.wb) (m : Memory) :
    PortProg.run (Config.reconfigure n d c) p m = PortProg.run c p m := by
  induction p generalizing m with
  | done r => rfl
  | read k rest ih => exact if_congr Iff.rfl (ih (m.word c k) m) rfl
  | write k v rest ih =>
    refine if_congr Iff.rfl ?_ rfl
    rw [setWord_reconfigure]
    exact ih (m.setWord c k v)

/-! ### Every operation commutes with the change -/

variable (s : State)

theorem runPort_reconfigure (p : PortProg s.cfg.wb) :
    (s.reconfigure n d).runPort p = mapNext (State.reconfigure n d) (s.runPort p) := by
  have hrun : PortProg.run (s.reconfigure n d).cfg p (s.reconfigure n d).buf = p.run s.cfg s.buf :=
    run_reconfigure n d s.cfg p s.buf
  unfold State.runPort
  rw [hrun]
  cases p.run s.cfg s.buf <;> rfl

/-- The guard of a running state commutes when what it guards does. -/
theorem ifRunning_reconfigure {k k' : Host.Outcome State Fault Refusal}
    (h : k' = mapNext (State.reconfigure n d) k) :
    ifRunning (s.reconfigure n d) k' = mapNext (State.reconfigure n d) (ifRunning s k) :=
  h ▸ ifRunning_mapNext rfl

/-- A command behind its check commutes when what the check guards does. -/
theorem checked_reconfigure (chk : Option Fault) {k k' : Host.Outcome State Fault Refusal}
    (h : k' = mapNext (State.reconfigure n d) k) :
    ifRunning (s.reconfigure n d) (unlessFault (s.reconfigure n d) chk k') =
      mapNext (State.reconfigure n d) (ifRunning s (unlessFault s chk k)) :=
  ifRunning_reconfigure n d s (h ▸ unlessFault_mapNext chk fun _ => rfl)

theorem exec_reconfigure (i : Instr) :
    exec i (s.reconfigure n d) = mapNext (State.reconfigure n d) (exec i s) := by
  cases i with
  | get w i => exact checked_reconfigure n d s (checkCodec s.cfg w i) (runPort_reconfigure n d s _)
  | set w i v => exact checked_reconfigure n d s (checkCodec s.cfg w i) (runPort_reconfigure n d s _)
  | packs w m => exact checked_reconfigure n d s (checkWidthRange s.cfg w) rfl
  | wsel m => exact checked_reconfigure n d s (checkWsel m) rfl

theorem issueCommand_reconfigure (c : Command) :
    issueCommand c (s.reconfigure n d) = mapNext (State.reconfigure n d) (issueCommand c s) := by
  apply ifRunning_reconfigure
  cases decode c with
  | error r => rfl
  | ok i => exact exec_reconfigure n d s i

theorem hostReadRes_reconfigure :
    hostReadRes (s.reconfigure n d) = mapNext (State.reconfigure n d) (hostReadRes s) := by
  apply ifRunning_reconfigure
  rw [show (s.reconfigure n d).res = s.res from rfl]
  cases s.res <;> rfl

theorem hostReadBuf_reconfigure (k : Nat) :
    hostReadBuf k (s.reconfigure n d) = mapNext (State.reconfigure n d) (hostReadBuf k s) := by
  apply ifRunning_reconfigure
  rw [apply_ite (mapNext (State.reconfigure n d))]
  rfl

theorem hostWriteBuf_reconfigure (k : Nat) (v : Word64) :
    hostWriteBuf k v (s.reconfigure n d) = mapNext (State.reconfigure n d) (hostWriteBuf k v s) := by
  have hstate : ({ s.reconfigure n d with
      buf := s.buf.setWord (s.reconfigure n d).cfg k (v.setWidth s.cfg.wb) } : State) =
      State.reconfigure n d { s with buf := s.buf.setWord s.cfg k (v.setWidth s.cfg.wb) } :=
    congrArg (fun m => { s.reconfigure n d with buf := m }) (setWord_reconfigure n d s.cfg s.buf k _)
  apply ifRunning_reconfigure
  rw [apply_ite (mapNext (State.reconfigure n d)), apply_ite (mapNext (State.reconfigure n d)), mapNext_next]
  exact if_congr Iff.rfl (if_congr Iff.rfl (congrArg Host.Outcome.next hstate) rfl) rfl

theorem perform_reconfigure (a : HostAction) :
    perform a (s.reconfigure n d) = mapNext (State.reconfigure n d) (perform a s) := by
  cases a with
  | issue c => exact issueCommand_reconfigure n d s c
  | readRes => exact hostReadRes_reconfigure n d s
  | readBuf k => exact hostReadBuf_reconfigure n d s k
  | writeBuf k v => exact hostWriteBuf_reconfigure n d s k v
  | reset => exact ifRunning_reconfigure n d s rfl

theorem step_reconfigure :
    step (s.reconfigure n d) = mapNext (State.reconfigure n d) (step s) := by
  apply ifRunning_reconfigure
  rw [show (s.reconfigure n d).pending = s.pending from rfl]
  cases s.pending with
  | nil => rfl
  | cons a rest => exact perform_reconfigure n d { s with pending := rest } a

end Sys2Proof.Machine

namespace Sys2Proof

/-- Settles O30: `step` commutes with changing LATENCY and the debug checker. -/
theorem latencyAndDebugCheckerAreInert : Obligations.LatencyAndDebugCheckerAreInert := by
  intro s n d
  refine (Machine.step_reconfigure n d s).trans ?_
  cases Machine.step s <;> rfl

end Sys2Proof
end

section
/-! PROOFS. What every step keeps (10_state.md R25, R30, 20_memory.md R57): the parameters, and the canonical buffer
inside BUF. Each fact goes from the commands to HOST's actions to the step. -/

namespace Sys2Proof.Machine

variable {s t : State}

/-! ### The parameters -/

theorem exec_cfg {i : Instr} (h : exec i s = .next t) : t.cfg = s.cfg := by
  obtain ⟨-, ⟨f, rfl⟩ | ⟨v, rfl⟩ | ⟨w, n, v, -, -, rfl⟩⟩ := exec_next h <;> rfl

theorem perform_cfg {a : HostAction} (h : perform a s = .next t) : t.cfg = s.cfg := by
  obtain ⟨-, ⟨f, rfl⟩ | ⟨c, i, -, -, he⟩ | ⟨v, rfl⟩ | ⟨k, v, -, -, rfl⟩ | ⟨-, rfl⟩⟩ := perform_next h
  case inr.inl => exact exec_cfg he
  all_goals rfl

theorem step_cfg (h : step s = .next t) : t.cfg = s.cfg := by
  obtain ⟨-, ⟨-, rfl⟩ | ⟨a, rest, -, hp⟩⟩ := step_next h
  · rfl
  · exact perform_cfg (s := { s with pending := rest }) hp

/-! ### The invariant -/

theorem wf_iff : s.wf ↔ s.cfg.wf ∧ s.buf.wf ∧ s.buf.within (byteSize s.cfg) := by
  rw [State.wf, Bool.and_eq_true, Bool.and_eq_true, and_assoc]

/-- The invariant reads the parameters and the buffer alone. -/
theorem wf_of_eq (hc : t.cfg = s.cfg) (hb : t.buf = s.buf) (hs : s.wf) : t.wf := by
  rwa [wf_iff, hc, hb, ← wf_iff]

/-- A new buffer that is canonical and inside BUF keeps the invariant. -/
theorem wf_withBuf {m : Memory} (hs : s.wf) (hm : m.wf ∧ m.within (byteSize s.cfg)) :
    ({ s with buf := m } : State).wf :=
  wf_iff.2 ⟨(wf_iff.1 hs).1, hm⟩

theorem exec_keeps_wf {i : Instr} (hs : s.wf) (h : exec i s = .next t) : t.wf := by
  obtain ⟨-, hbuf, hin⟩ := wf_iff.1 hs
  obtain ⟨-, ⟨f, rfl⟩ | ⟨v, rfl⟩ | ⟨w, n, v, -, hc, rfl⟩⟩ := exec_next h
  · exact wf_of_eq rfl rfl hs
  · exact wf_of_eq rfl rfl hs
  · exact wf_withBuf hs (setMemory_keeps hc hbuf hin)

theorem perform_keeps_wf {a : HostAction} (hs : s.wf) (h : perform a s = .next t) : t.wf := by
  obtain ⟨-, hbuf, hin⟩ := wf_iff.1 hs
  obtain ⟨-, ⟨f, rfl⟩ | ⟨c, i, -, -, he⟩ | ⟨v, rfl⟩ | ⟨k, v, -, hk, rfl⟩ | ⟨-, rfl⟩⟩ := perform_next h
  · exact wf_of_eq rfl rfl hs
  · exact exec_keeps_wf hs he
  · exact wf_of_eq rfl rfl hs
  · exact wf_withBuf hs ⟨wf_setWord k _ hbuf, within_setWord _ hin hk⟩
  · exact wf_of_eq rfl rfl hs

theorem step_keeps_wf (hs : s.wf) (h : step s = .next t) : t.wf := by
  obtain ⟨-, ⟨-, rfl⟩ | ⟨a, rest, -, hp⟩⟩ := step_next h
  · exact hs
  · exact perform_keeps_wf (s := { s with pending := rest }) (wf_of_eq rfl rfl hs) hp

/-- A launch state that lists no byte has the invariant on every legal instance. -/
theorem powerUp_nil_wf {c : Config} (hc : c.wf) : (State.powerUp c []).wf :=
  wf_iff.2 ⟨hc, rfl, rfl⟩

end Sys2Proof.Machine

namespace Sys2Proof

/-- Settles O27: a SET writes words of BUF after its check, HOST's write is bounded by BUF_WORDS, and nothing else
changes the parameters or the buffer. -/
theorem stepKeepsWf : Obligations.StepKeepsWf :=
  fun _ _ => Machine.step_keeps_wf

/-- Settles O26: no HOST action, a command among them, writes them. -/
theorem parametersAreFixed : Obligations.ParametersAreFixed :=
  fun _ _ => Machine.step_cfg

/-- Settles O14: reset is a launch state. -/
theorem resetState : Obligations.ResetState :=
  ⟨Machine.powerUp_res _ _, Machine.powerUp_fault _ _⟩

/-- Settles O28: reset is a launch state that lists no byte, on a legal instance. -/
theorem resetIsWf : Obligations.ResetIsWf :=
  Machine.powerUp_nil_wf (by decide)

end Sys2Proof
end

section
/-! PROOFS. Who writes RES (10_state.md R24, R32). -/

namespace Sys2Proof.Machine

variable {s t : State}

/-- A command other than SET that completes leaves a value in RES. -/
theorem exec_res_ne_none_of_completed {i : Instr} (h : exec i s = .next t) (hf : t.fault = none)
    (hi : ∀ w n v, i ≠ .set w n v) : t.res ≠ none := by
  obtain ⟨-, ⟨f, rfl⟩ | ⟨v, rfl⟩ | ⟨w, n, v, hset, -, -⟩⟩ := exec_next h
  · simp at hf
  · simp
  · exact absurd hset (hi w n v)

theorem execSet_res {w n : Nat} {v : Word64} (h : execSet w n v s = .next t) : t.res = s.res := by
  obtain ⟨-, ⟨f, -, rfl⟩ | ⟨-, rfl⟩⟩ := execSet_next h <;> rfl

/-- No command takes RES's value away. -/
theorem exec_res_ne_none {i : Instr} (h : exec i s = .next t) (hs : s.res ≠ none) : t.res ≠ none := by
  obtain ⟨-, ⟨f, rfl⟩ | ⟨v, rfl⟩ | ⟨w, n, v, -, -, rfl⟩⟩ := exec_next h
  · exact hs
  · simp
  · exact hs

/-- HOST's reads and writes leave RES. -/
theorem perform_res {a : HostAction} (h : perform a s = .next t) (hissue : ∀ c, a ≠ .issue c)
    (hreset : a ≠ .reset) : t.res = s.res := by
  obtain ⟨-, ⟨f, rfl⟩ | ⟨c, i, ha, -, -⟩ | ⟨v, rfl⟩ | ⟨k, v, -, -, rfl⟩ | ⟨ha, -⟩⟩ := perform_next h
  · rfl
  · exact absurd ha (hissue c)
  · rfl
  · rfl
  · exact absurd ha hreset

/-- No action but RESET takes RES's value away. -/
theorem perform_res_ne_none {a : HostAction} (h : perform a s = .next t) (hreset : a ≠ .reset)
    (hs : s.res ≠ none) : t.res ≠ none := by
  obtain ⟨-, ⟨f, rfl⟩ | ⟨c, i, -, -, he⟩ | ⟨v, rfl⟩ | ⟨k, v, -, -, rfl⟩ | ⟨ha, -⟩⟩ := perform_next h
  · exact hs
  · exact exec_res_ne_none he hs
  · exact hs
  · exact hs
  · exact absurd ha hreset

/-- No step but RESET takes RES's value away. -/
theorem step_res_ne_none (h : step s = .next t) (hs : s.res ≠ none)
    (hreset : ∀ rest, s.pending ≠ .reset :: rest) : t.res ≠ none := by
  obtain ⟨-, ⟨-, rfl⟩ | ⟨a, rest, hpend, hp⟩⟩ := step_next h
  · exact hs
  · exact perform_res_ne_none hp (fun ha => hreset rest (ha ▸ hpend)) hs

/-- A step that takes neither a command nor RESET leaves RES. -/
theorem step_res (h : step s = .next t) (hissue : ∀ c rest, s.pending ≠ .issue c :: rest)
    (hreset : ∀ rest, s.pending ≠ .reset :: rest) : t.res = s.res := by
  obtain ⟨-, ⟨-, rfl⟩ | ⟨a, rest, hpend, hp⟩⟩ := step_next h
  · rfl
  · exact perform_res (s := { s with pending := rest }) hp (fun c ha => hissue c rest (ha ▸ hpend))
      (fun ha => hreset rest (ha ▸ hpend))

end Sys2Proof.Machine

namespace Sys2Proof

open Sys2Proof.Machine

/-- Settles O29: what a completed command leaves in RES, and which HOST actions reach it. -/
theorem resIsWrittenBy : Obligations.ResIsWrittenBy := by
  refine ⟨fun i s t h hf => ⟨exec_res_ne_none_of_completed h hf, ?_⟩,
    fun s t => step_res_ne_none, fun s t => step_res⟩
  rintro ⟨w, n, v, rfl⟩
  exact execSet_res h

end Sys2Proof
end

section
/-! PROOFS. A command's word events, no other agent writing between them, are its atomic step (10_state.md R20,
20_memory.md R50, R51). -/

namespace Sys2Proof.Machine

variable (c : Config)

/-- An empty group of other agents' writes leaves the buffer. -/
theorem otherWrites_headD_replicate_nil (n : Nat) (m : Memory) :
    otherWrites c ((List.replicate n []).headD []) m = m := by
  cases n <;> rfl

/-- Each event finds the buffer the event before it left, by induction on the accesses of the program. -/
theorem runAmong_replicate_nil (p : PortProg c.wb) (n : Nat) (m : Memory) :
    p.runAmong c (List.replicate n []) m = p.run c m := by
  induction p generalizing n m with
  | done r => rw [PortProg.runAmong, List.flatten_replicate_nil, otherWrites, run_done]
  | read k rest ih =>
    simp only [PortProg.runAmong, PortProg.run, otherWrites_headD_replicate_nil, List.tail_replicate, ih]
  | write k v rest ih =>
    simp only [PortProg.runAmong, PortProg.run, otherWrites_headD_replicate_nil, List.tail_replicate, ih]

end Sys2Proof.Machine

namespace Sys2Proof

/-- Settles O54: no other writes are empty groups before every event. -/
theorem eventsWithoutInterferenceAreAtomic : Obligations.EventsWithoutInterferenceAreAtomic :=
  Machine.runAmong_replicate_nil

end Sys2Proof
end

section
/-! PROOFS. HOST's own accesses (10_state.md R33, 20_memory.md R57) and the command a step takes (10_state.md R20,
30_encoding.md R69). -/

namespace Sys2Proof

/-- The fields of a command word hold no more than their bits (30_encoding.md R61, R63). -/
theorem wellFormed_of_decode {c : Command} {i : Instr} (h : decode c = .ok i) : i.wellFormed = true := by
  have hw : widthEncodable c.w = true := decide_eq_true (c.cmd.extractLsb' 4 7).isLt
  have hi : indexEncodable c.idx.toNat = true := decide_eq_true c.idx.isLt
  obtain ⟨-, ⟨-, rfl⟩ | ⟨-, rfl⟩ | ⟨-, rfl⟩ | ⟨-, -, rfl⟩⟩ := decode_ok h <;>
    simp [Instr.wellFormed, hw, hi]

namespace Machine

variable {s : State} {k : Nat} {v : Word64}

theorem hostReadRes_of_some (hf : s.fault = none) (hr : s.res = some v) :
    hostReadRes s = .next { s with reads := v :: s.reads } := by
  rw [hostReadRes, ifRunning_of_none hf, hr]

theorem hostReadBuf_of_lt (hf : s.fault = none) (hk : k < s.cfg.bufWords) :
    hostReadBuf k s = .next { s with reads := zext64 (s.word k) :: s.reads } := by
  rw [hostReadBuf, ifRunning_of_none hf, if_pos hk]

theorem hostReadBuf_of_le (hf : s.fault = none) (hk : s.cfg.bufWords ≤ k) :
    hostReadBuf k s = .refused (.noSuchWord k) := by
  rw [hostReadBuf, ifRunning_of_none hf, if_neg (Nat.not_lt.2 hk)]

theorem hostWriteBuf_of_lt (hf : s.fault = none) (hk : k < s.cfg.bufWords) (hv : v.toNat < 2 ^ s.cfg.wb) :
    hostWriteBuf k v s = .next { s with buf := s.buf.setWord s.cfg k (v.setWidth s.cfg.wb) } := by
  rw [hostWriteBuf, ifRunning_of_none hf, if_pos hk, if_pos hv]

theorem hostWriteBuf_of_le (hf : s.fault = none) (hk : s.cfg.bufWords ≤ k) :
    hostWriteBuf k v s = .refused (.noSuchWord k) := by
  rw [hostWriteBuf, ifRunning_of_none hf, if_neg (Nat.not_lt.2 hk)]

end Machine

open Sys2Proof.Machine

/-- Settles O20: the step takes the access HOST has pending; `word_setWord` says what the write leaves. -/
theorem hostAccesses : Obligations.HostAccesses := by
  intro s rest hf
  refine ⟨fun v hr hp => ?_, fun k hk hp => ?_, fun k v hk hv hs hp => ?_, fun k v hk hp => ?_⟩
  · rw [step_of_pending hf hp]
    exact hostReadRes_of_some hf hr
  · rw [step_of_pending hf hp]
    exact hostReadBuf_of_lt hf hk
  · obtain ⟨-, hbuf, -⟩ := wf_iff.1 hs
    refine ⟨s.buf.setWord s.cfg k (v.setWidth s.cfg.wb), ?_, ?_, fun k' hne => ?_⟩
    · rw [step_of_pending hf hp]
      exact hostWriteBuf_of_lt hf hk hv
    · rw [word_setWord hbuf, if_pos rfl, BitVec.toNat_setWidth, Nat.mod_eq_of_lt hv]
    · rw [word_setWord hbuf, if_neg hne]
  · rcases hp with hp | hp <;> rw [step_of_pending hf hp]
    · exact hostReadBuf_of_le hf hk
    · exact hostWriteBuf_of_le hf hk

/-- Settles O22: decoded operands come from fields of fixed size, and the step takes the command HOST issues. -/
theorem stepRunsDecodedCommand : Obligations.StepRunsDecodedCommand := by
  intro s c i rest hf hp hd
  refine ⟨wellFormed_of_decode hd, ?_⟩
  rw [step_of_issue hf hp, hd]

end Sys2Proof
end

section
/-! PROOFS. The buffer word by word and byte by byte (20_memory.md R40, R43, R44, R46): its bits, the bytes of the
HOST byte view, and a buffer for every assignment of words. -/

namespace Sys2Proof.Machine

/-! ### Buffer bits and the HOST byte view -/

/-- Buffer bit `k × WORD_BITS + p` is bit `p` of word `k` (20_memory.md R40). -/
theorem bit_mul_add {c : Config} (m : Memory) (k : Nat) {p : Nat} (hp : p < c.wb) :
    m.bit c (k * c.wb + p) = (m.word c k).getLsbD p := by
  obtain ⟨hq, hr⟩ := div_mod_of_split (n := k * c.wb + p) hp rfl
  rw [Memory.bit, hq, hr]

/-- Bits 8j+7..8j of a word are the byte at `byteAddr` (20_memory.md R43). -/
theorem word_getLsbD_byte {c : Config} (m : Memory) (k : Nat) {j p : Nat} (hj : j < c.wordBits.bytes) (hp : p < 8) :
    (m.word c k).getLsbD (8 * j + p) = (m.readByte (byteAddr c k j)).getLsbD p := by
  have hwb := wb_eq_bytes c
  rw [word_getLsbD, show (8 * j + p) / 8 = j by omega, show (8 * j + p) % 8 = p by omega,
    decide_eq_true (by omega : 8 * j + p < c.wb), Bool.true_and]

theorem byteAddr_little {c : Config} (ho : c.byteOrder = .little) (k j : Nat) :
    byteAddr c k j = k * c.wordBits.bytes + j := by
  rw [byteAddr, ho]

theorem byteAddr_big {c : Config} (ho : c.byteOrder = .big) (k j : Nat) :
    byteAddr c k j = k * c.wordBits.bytes + (c.wordBits.bytes - 1 - j) := by
  rw [byteAddr, ho]

/-- Under LITTLE byte `n` holds buffer bits 8n+7..8n (20_memory.md R44). -/
theorem readByte_getLsbD_little {c : Config} (ho : c.byteOrder = .little) (m : Memory) (n : Nat) {p : Nat}
    (hp : p < 8) : (m.readByte n).getLsbD p = m.bit c (8 * n + p) := by
  have hwb := wb_eq_bytes c
  have hj : n % c.wordBits.bytes < c.wordBits.bytes := Nat.mod_lt _ (bytes_pos c)
  have hn : n / c.wordBits.bytes * c.wordBits.bytes + n % c.wordBits.bytes = n := Nat.div_add_mod' n _
  have hbit : 8 * n + p = n / c.wordBits.bytes * c.wb + (8 * (n % c.wordBits.bytes) + p) := by
    rw [hwb, Nat.mul_left_comm]
    omega
  rw [hbit, bit_mul_add m _ (by omega), word_getLsbD_byte m _ hj hp, byteAddr_little ho, hn]

/-! ### A buffer for every assignment of words -/

/-- The buffer whose first `n` words are `f 0`, …, `f (n - 1)`. -/
def bufferOf (c : Config) (f : Nat → BitVec c.wb) : Nat → Memory
  | 0 => []
  | n + 1 => (bufferOf c f n).setWord c n (f n)

variable {c : Config} (f : Nat → BitVec c.wb)

theorem wf_bufferOf (n : Nat) : (bufferOf c f n).wf := by
  induction n with
  | zero => rfl
  | succ n ih => exact wf_setWord n (f n) ih

theorem within_bufferOf {n : Nat} (hn : n ≤ c.bufWords) : (bufferOf c f n).within (byteSize c) := by
  induction n with
  | zero => rfl
  | succ n ih => exact within_setWord (f n) (ih (by omega)) hn

theorem word_bufferOf {n k : Nat} (hk : k < n) : (bufferOf c f n).word c k = f k := by
  induction n with
  | zero => omega
  | succ n ih =>
    rw [bufferOf, word_setWord (wf_bufferOf f n)]
    by_cases hkn : k = n
    · rw [if_pos hkn, hkn]
    · rw [if_neg hkn, ih (by omega)]

end Sys2Proof.Machine

namespace Sys2Proof

open Sys2Proof.Machine

/-- Settles O16: write each word of BUF in turn, from the buffer that lists nothing. -/
theorem everyPowerUpContentIsAState : Obligations.EveryPowerUpContentIsAState := by
  intro c hc f
  exact ⟨bufferOf c f c.bufWords, wf_iff.2 ⟨hc, wf_bufferOf f _, within_bufferOf f (Nat.le_refl _)⟩,
    rfl, rfl, fun k hk => word_bufferOf f hk⟩

/-- Settles O17: byte `b` of a word is its byte `b` from the right under LITTLE, from the left under BIG. -/
theorem hostByteView : Obligations.HostByteView := by
  intro c m k b p hb hp
  have hwb := wb_eq_bytes c
  cases ho : c.byteOrder with
  | little => rw [word_getLsbD_byte m k hb hp, byteAddr_little ho]
  | big =>
    have hj : c.wordBits.bytes - 1 - b < c.wordBits.bytes := by omega
    dsimp only
    rw [show c.wb - 8 - 8 * b + p = 8 * (c.wordBits.bytes - 1 - b) + p by omega,
      word_getLsbD_byte m k hj hp, byteAddr_big ho,
      show c.wordBits.bytes - 1 - (c.wordBits.bytes - 1 - b) = b by omega]

/-- Settles O18: under BIG the byte 01H at address 0 of a one-word 16-bit buffer is bits 15..8, not bits 7..0. -/
theorem littleByteOrderIsWidthFree : Obligations.LittleByteOrderIsWidthFree :=
  ⟨fun _ m n _ ho hp => readByte_getLsbD_little ho m n hp,
    { Tests.cfg .w16 1 with byteOrder := .big }, [(0, 0x01)], 0, 0, by decide⟩

end Sys2Proof
end

section
/-! PROOFS. No command depends on HOST_BYTE_ORDER (20_memory.md R43, R44, R45): CORE moves whole words, so buffers
that hold the same words under two byte orders answer every port program alike. -/

namespace Sys2Proof

/-- The parameters with HOST_BYTE_ORDER `o`. -/
def Config.withByteOrder (o : ByteOrder) (c : Config) : Config := { c with byteOrder := o }

namespace Machine

variable {o : ByteOrder} {c : Config} {s t : State} {m m' : Memory}

/-! ### Buffers that hold the same words -/

/-- Canonical buffers, `m'` under byte order `o`, that hold the same words of BUF. -/
structure SameWords (o : ByteOrder) (c : Config) (m m' : Memory) : Prop where
  wf_left : m.wf
  wf_right : m'.wf
  word_eq : ∀ k < c.bufWords, m'.word (c.withByteOrder o) k = m.word c k

/-- Words that agree bit by bit over BUF agree. -/
theorem SameWords.of_bits (hm : m.wf) (hm' : m'.wf)
    (h : ∀ p < c.bufWords * c.wb, m'.bit (c.withByteOrder o) p = m.bit c p) : SameWords o c m m' := by
  refine ⟨hm, hm', fun k hk => BitVec.eq_of_getLsbD_eq (w := c.wb) fun p hp => ?_⟩
  have hin : k * c.wb + p < c.bufWords * c.wb := Nat.mul_comm k c.wb ▸ Nat.mul_add_lt_mul_of_lt_of_lt hk hp
  calc (m'.word (c.withByteOrder o) k).getLsbD p
      = m'.bit (c.withByteOrder o) (k * c.wb + p) := (bit_mul_add (c := c.withByteOrder o) m' k hp).symm
    _ = m.bit c (k * c.wb + p) := h _ hin
    _ = (m.word c k).getLsbD p := bit_mul_add m k hp

theorem SameWords.bit_eq (h : SameWords o c m m') {p : Nat} (hp : p < c.bufWords * c.wb) :
    m'.bit (c.withByteOrder o) p = m.bit c p :=
  congrArg (BitVec.getLsbD · (p % c.wb)) (h.word_eq _ (Nat.div_lt_of_lt_mul (Nat.mul_comm _ _ ▸ hp)))

/-- The same word written under either byte order. -/
theorem SameWords.setWord (h : SameWords o c m m') (k : Nat) (v : BitVec c.wb) :
    SameWords o c (m.setWord c k v) (m'.setWord (c.withByteOrder o) k v) := by
  refine ⟨wf_setWord k v h.wf_left, wf_setWord (c := c.withByteOrder o) k v h.wf_right, fun k' hk' => ?_⟩
  have hright := word_setWord (c := c.withByteOrder o) h.wf_right k k' v
  have hleft := word_setWord h.wf_left k k' v
  exact hright.trans ((if_congr Iff.rfl rfl (h.word_eq k' hk')).trans hleft.symm)

/-- A port program that completes under one byte order completes alike under the other, by induction on its
accesses. -/
theorem SameWords.run {p : PortProg c.wb} {m₁ : Memory} {r : Option Word64} (h : SameWords o c m m')
    (hr : p.run c m = .ok (m₁, r)) :
    ∃ m₁', PortProg.run (c.withByteOrder o) p m' = .ok (m₁', r) ∧ SameWords o c m₁ m₁' := by
  induction p generalizing m m' with
  | done r' =>
    cases hr
    exact ⟨m', rfl, h⟩
  | read k rest ih =>
    by_cases hk : k < c.bufWords
    · rw [run_read hk] at hr
      obtain ⟨m₁', hr', h₁⟩ := ih _ h hr
      have hword := congrArg (fun x => PortProg.run (c.withByteOrder o) (rest x) m') (h.word_eq k hk)
      exact ⟨m₁', (run_read (c := c.withByteOrder o) hk rest m').trans (hword.trans hr'), h₁⟩
    · rw [PortProg.run, if_neg hk] at hr
      cases hr
  | write k v rest ih =>
    by_cases hk : k < c.bufWords
    · rw [run_write hk] at hr
      obtain ⟨m₁', hr', h₁⟩ := ih (h.setWord k v) hr
      exact ⟨m₁', (run_write (c := c.withByteOrder o) hk v rest m').trans hr', h₁⟩
    · rw [PortProg.run, if_neg hk] at hr
      cases hr

/-! ### Outcomes that are alike -/

/-- Where `k` answers a next state, `k'` answers it under byte order `o`, its buffer holding the same words. -/
def NextAlike (o : ByteOrder) (k k' : Host.Outcome State Fault Refusal) : Prop :=
  ∀ t, k = .next t → ∃ m', k' = .next (t.onByteOrder o m') ∧ SameWords o t.cfg t.buf m'

theorem nextAlike_next (h : SameWords o t.cfg t.buf m') : NextAlike o (.next t) (.next (t.onByteOrder o m')) := by
  rintro _ ⟨⟩
  exact ⟨m', rfl, h⟩

variable (h : SameWords o s.cfg s.buf m)
include h

/-- A check of the parameters and what it guards, in a running state. -/
theorem nextAlike_checked (chk : Option Fault) {k k' : Host.Outcome State Fault Refusal} (hk : NextAlike o k k') :
    NextAlike o (ifRunning s (unlessFault s chk k))
      (ifRunning (s.onByteOrder o m) (unlessFault (s.onByteOrder o m) chk k')) := by
  intro t ht
  obtain ⟨hf, ht⟩ := ifRunning_next ht
  rw [ifRunning_of_none (s := s.onByteOrder o m) hf]
  obtain ⟨f, rfl, rfl⟩ | ⟨rfl, ht⟩ := unlessFault_next ht
  · exact ⟨m, rfl, h⟩
  · exact hk t ht

theorem nextAlike_runPort (p : PortProg s.cfg.wb) : NextAlike o (s.runPort p) ((s.onByteOrder o m).runPort p) := by
  intro t ht
  obtain ⟨m₁, r, hr, rfl⟩ := runPort_next ht
  obtain ⟨m₁', hr', h₁⟩ := h.run hr
  exact ⟨m₁', runPort_of_ok (s := s.onByteOrder o m) hr', h₁⟩

/-- Every command is a check of the parameters before its accesses or its write of RES. -/
theorem nextAlike_exec (i : Instr) : NextAlike o (exec i s) (exec i (s.onByteOrder o m)) := by
  cases i with
  | get w i => exact nextAlike_checked h (checkCodec s.cfg w i) (nextAlike_runPort h _)
  | set w i v => exact nextAlike_checked h (checkCodec s.cfg w i) (nextAlike_runPort h _)
  | packs w n => exact nextAlike_checked h (checkWidthRange s.cfg w) (nextAlike_next (t := s.writeRes _) h)
  | wsel n => exact nextAlike_checked h (checkWsel n) (nextAlike_next (t := s.writeRes _) h)

end Machine

open Sys2Proof.Machine

/-- Settles O19: bits that agree are words that agree, and no command sees more of BUF than its words. -/
theorem byteOrderIsInvisibleToCommands : Obligations.ByteOrderIsInvisibleToCommands := by
  intro s t o m i hs hsm hbits ht
  obtain ⟨-, hbuf, -⟩ := wf_iff.1 hs
  obtain ⟨-, hm, -⟩ := wf_iff.1 hsm
  obtain ⟨m', ht', hsame⟩ := nextAlike_exec (.of_bits hbuf hm hbits) i t ht
  refine ⟨m', ht', fun p hp => ?_⟩
  rw [← exec_cfg ht] at hp
  exact hsame.bit_eq hp

end Sys2Proof
end

section
/-! PROOFS. GET of an accepted element as arithmetic on the buffer value (20_memory.md R41, 40_codec.md R101,
R110(b)). -/

namespace Sys2Proof.Machine

/-- GET of an accepted element is its port program. -/
theorem execGet_of_accepts {s : State} {w i : Nat} (hf : s.fault = none) (ha : CodecAccepts s.cfg w i) :
    execGet w i s = s.runPort (getPort s.cfg.wb w i) := by
  rw [execGet, ifRunning_of_none hf, checkCodec_of_accepts ha, unlessFault_none]

/-- Bit `p` of `(B div 2^(i × w)) mod 2^w` is bit `p` of the element. -/
theorem value_element_testBit {c : Config} {w i n : Nat} (m : Memory) (hi : (i + 1) * w ≤ n * c.wb) (p : Nat) :
    (m.value c n / 2 ^ (i * w) % 2 ^ w).testBit p = (decide (p < w) && m.bit c (i * w + p)) := by
  rw [Nat.testBit_mod_two_pow, Nat.testBit_div_two_pow, value_testBit, Nat.add_comm p]
  by_cases hp : p < w
  · rw [Nat.succ_mul] at hi
    rw [decide_eq_true (by omega : i * w + p < n * c.wb), Bool.true_and]
  · rw [decide_eq_false hp, Bool.false_and, Bool.false_and]

end Sys2Proof.Machine

namespace Sys2Proof

open Sys2Proof.Machine

/-- Settles O39: GET and the arithmetic on the buffer value have the same bits. -/
theorem getReturnsTheElement : Obligations.GetReturnsTheElement := by
  intro s w i hf ha
  have ⟨h1, hw, _, hi⟩ := ha
  obtain ⟨v, hrun, hv⟩ := getPort_bits h1 hw hi s.buf
  have hval : v = BitVec.ofNat 64 (s.bufValue / 2 ^ (i * w) % 2 ^ w) := by
    refine BitVec.eq_of_getLsbD_eq fun p hp => ?_
    rw [hv, BitVec.getLsbD_ofNat, value_element_testBit s.buf hi, decide_eq_true hp, Bool.true_and]
  rw [← hval]
  exact (execGet_of_accepts hf ha).trans (runPort_of_ok hrun)

end Sys2Proof
end

section
/-! PROOFS. What another agent's word write between two accesses of one command does (20_memory.md R52): a lost
update and a torn read. -/

namespace Sys2Proof.Machine

variable {c : Config} {w i k : Nat} {m : Memory}

/-! ### A command among other writers, event by event -/

theorem runAmong_read (hk : k < c.bufWords) (rest : BitVec c.wb → PortProg c.wb)
    (ws : List (Nat × BitVec c.wb)) (env : List (List (Nat × BitVec c.wb))) :
    PortProg.runAmong c (.read k rest) (ws :: env) m =
      PortProg.runAmong c (rest ((otherWrites c ws m).word c k)) env (otherWrites c ws m) :=
  if_pos hk

theorem runAmong_write (hk : k < c.bufWords) (v : BitVec c.wb) (rest : PortProg c.wb)
    (ws : List (Nat × BitVec c.wb)) (env : List (List (Nat × BitVec c.wb))) :
    PortProg.runAmong c (.write k v rest) (ws :: env) m =
      PortProg.runAmong c rest env ((otherWrites c ws m).setWord c k v) :=
  if_pos hk

theorem runAmong_done_nil (r : Option Word64) : PortProg.runAmong c (.done r) [] m = .ok (m, r) := rfl

@[simp] theorem otherWrites_nil : otherWrites c [] m = m := rfl

theorem otherWrites_singleton (hk : k < c.bufWords) (v : BitVec c.wb) :
    otherWrites c [(k, v)] m = m.setWord c k v :=
  if_pos hk

/-- The two words of an accepted element are words of BUF (40_codec.md R85(d)). -/
theorem locate_lt_of_accepts (h : CodecAccepts c w i) :
    (locate c.wb w i).a < c.bufWords ∧ (locate c.wb w i).b < c.bufWords := by
  obtain ⟨h1, -, -, hi⟩ := h
  have hwb := wb_bounds c
  have hb := locate_b_lt (by omega) h1 hi
  exact ⟨Nat.lt_of_le_of_lt (locate_a_le_b c.wb w i h1) hb, hb⟩

/-! ### A lost update -/

/-- A later write of the same word hides an earlier one (20_memory.md R49). -/
theorem word_setWord_setWord (hm : m.wf) (k k' : Nat) (u v : BitVec c.wb) :
    ((m.setWord c k u).setWord c k v).word c k' = (m.setWord c k v).word c k' := by
  rw [word_setWord (wf_setWord k u hm), word_setWord hm, word_setWord hm]
  split <;> rfl

/-- SET of an infix element, on either path: one read and one write of word a (40_codec.md R104, R108). -/
theorem setPort_infix (v : Word64) (h : (locate c.wb w i).a = (locate c.wb w i).b) :
    setPort c.wb w i v = .read (locate c.wb w i).a fun wa =>
      .write (locate c.wb w i).a (infixWord w (locate c.wb w i).da (truncateTo c.wb w v) wa) (.done none) := by
  by_cases h1 : w = 1
  · subst h1
    have h8 := (wb_bounds c).1
    have hs : i % c.wb < c.wb := Nat.mod_lt _ (by omega)
    simp only [setPort, if_pos, setBitPort, locate_one, setBitWord_eq h8 hs]
  · rw [setPort, if_neg h1, setGeneralPort, if_pos h]

/-! ### A torn read -/

/-- GET of a straddling element reads word a, then word b (40_codec.md R101). -/
theorem getPort_split (h : (locate c.wb w i).a ≠ (locate c.wb w i).b) :
    getPort c.wb w i = .read (locate c.wb w i).a fun wa => .read (locate c.wb w i).b fun xb =>
      .done (some (zext64 ((shr wa (locate c.wb w i).da ||| shl xb (c.wb - (locate c.wb w i).da)) &&&
        mask c.wb w))) := by
  have h1 : w ≠ 1 := by
    rintro rfl
    simp [locate_one] at h
  simp only [getPort, if_neg h1, getGeneralPort, if_neg h]

/-- Word b replaced between the two reads of a GET: the GET is the atomic one of the buffer with the new word. -/
theorem getPort_runAmong_split (hm : m.wf) (ha : CodecAccepts c w i)
    (h : (locate c.wb w i).a ≠ (locate c.wb w i).b) (u : BitVec c.wb) :
    (getPort c.wb w i).runAmong c [[], [((locate c.wb w i).b, u)]] m =
      (getPort c.wb w i).run c (m.setWord c (locate c.wb w i).b u) := by
  obtain ⟨hka, hkb⟩ := locate_lt_of_accepts ha
  rw [getPort_split h, runAmong_read hka, runAmong_read hkb, runAmong_done_nil, otherWrites_nil,
    otherWrites_singleton hkb, run_read hka, run_read hkb, run_done, word_setWord hm _ (locate c.wb w i).a, if_neg h]

end Sys2Proof.Machine

namespace Sys2Proof

open Sys2Proof.Machine

/-- Settles O55: the infix SET writes the whole of word a from the word it read, over whatever stands there by
then. -/
theorem infixSetLosesAConcurrentWrite : Obligations.InfixSetLosesAConcurrentWrite := by
  intro c w i v u m hm ha h
  obtain ⟨hka, -⟩ := locate_lt_of_accepts ha
  refine ⟨_, _, ?_, ?_, fun k => word_setWord_setWord hm (locate c.wb w i).a k u
    (infixWord w (locate c.wb w i).da (truncateTo c.wb w v) (m.word c (locate c.wb w i).a))⟩
  · rw [setPort_infix v h, runAmong_read hka, runAmong_write hka, runAmong_done_nil, otherWrites_nil,
      otherWrites_singleton hka]
  · rw [setPort_infix v h, run_read hka, run_write hka, run_done]

/-- Settles O56: word a is read before the other agent's write and word b after it, as from the buffer with the
new word b alone. -/
theorem splitGetCombinesOldAndNewWords : Obligations.SplitGetCombinesOldAndNewWords := by
  intro c w i u m hm ha h
  have ⟨h1, hw, _, hi⟩ := ha
  have hwb := wb_bounds c
  have hb : (locate c.wb w i).b = (locate c.wb w i).a + 1 :=
    locate_split (by omega) hw (Nat.lt_of_not_le (mt (locate_a_eq_b_iff (by omega) h1 hw).2 h))
  obtain ⟨x, hrun, hx⟩ := getPort_bits h1 hw hi (m.setWord c (locate c.wb w i).b u)
  refine ⟨_, x, (getPort_runAmong_split hm ha h u).trans hrun, fun p hp => ?_⟩
  rw [hx, decide_eq_true hp, Bool.true_and, Memory.bit]
  by_cases hl : (locate c.wb w i).da + p < c.wb
  · obtain ⟨hq, hr⟩ := locate_bit_left hl
    rw [if_pos hl, hq, hr, word_setWord hm, if_neg h]
  · obtain ⟨hq, hr⟩ := locate_bit_right (wb := c.wb) (w := w) (i := i) (p := p) (by omega) (by omega) (by omega)
    rw [if_neg hl, hq, hr, ← hb, word_setWord hm, if_pos rfl]

end Sys2Proof
end

section
/-! PROOFS. The decoder and the encoder undo each other (30_encoding.md R60, R69, R73), and the match and mask columns
of the opcode map (R66). -/

namespace Sys2Proof

open Sys2Proof.Laws.EncodedFields

/-! ### What the decoder answers -/

/-- What the decoder accepts, both ways (30_encoding.md R69). -/
theorem decode_eq_ok_iff {c : Command} {i : Instr} :
    decode c = .ok i ↔ c.rsv = 0 ∧
      ((c.op = 1 ∧ i = .get c.w c.idx.toNat) ∨ (c.op = 2 ∧ i = .set c.w c.idx.toNat c.val) ∨
       (c.op = 3 ∧ i = .packs c.w c.idx.toNat) ∨ (c.op = 4 ∧ c.w = 0 ∧ i = .wsel c.idx.toNat)) := by
  refine ⟨decode_ok, ?_⟩
  rintro ⟨hr, ⟨ho, rfl⟩ | ⟨ho, rfl⟩ | ⟨ho, rfl⟩ | ⟨ho, hw, rfl⟩⟩
  · simp [decode, hr, ho]
  · simp [decode, hr, ho]
  · simp [decode, hr, ho]
  · simp [decode, hr, ho, hw]

/-- A reserved OP is rejected whatever the other fields hold (30_encoding.md R67). -/
theorem decode_of_reserved_op {c : Command} (h : c.op = 0 ∨ 5 ≤ c.op) : decode c = .error .opcode :=
  if_pos (by omega)

theorem decode_eq_set_iff {c : Command} {w n : Nat} {v : Word64} :
    decode c = .ok (.set w n v) ↔ c.rsv = 0 ∧ c.op = 2 ∧ w = c.w ∧ n = c.idx.toNat ∧ v = c.val := by
  simp [decode_eq_ok_iff]

theorem decodes_get_iff (c : Command) : (∃ w i, decode c = .ok (.get w i)) ↔ c.rsv = 0 ∧ c.op = 1 := by
  simp [decode_eq_ok_iff]

theorem decodes_set_iff (c : Command) : (∃ w i v, decode c = .ok (.set w i v)) ↔ c.rsv = 0 ∧ c.op = 2 := by
  simp [decode_eq_ok_iff]

theorem decodes_packs_iff (c : Command) : (∃ w n, decode c = .ok (.packs w n)) ↔ c.rsv = 0 ∧ c.op = 3 := by
  simp [decode_eq_ok_iff]

theorem decodes_wsel_iff (c : Command) : (∃ n, decode c = .ok (.wsel n)) ↔ c.rsv = 0 ∧ c.op = 4 ∧ c.w = 0 := by
  simp [decode_eq_ok_iff]

/-! ### The command word from its fields -/

/-- With a clear reserved field the word is 16 × W + OP (30_encoding.md R60, R73). -/
theorem cmd_of_fields {c : Command} {w o : Nat} (hr : c.rsv = 0) (hw : c.w = w) (ho : c.op = o) :
    BitVec.ofNat 16 (16 * w + o) = c.cmd := by
  rw [rsv_eq_div] at hr
  refine BitVec.eq_of_toNat_eq ?_
  rw [BitVec.toNat_ofNat, ← hw, ← ho, w_eq_div_mod, op_eq_mod]
  omega

theorem cmd_eq_four_iff (c : Command) : c.cmd = 4 ↔ c.rsv = 0 ∧ c.op = 4 ∧ c.w = 0 := by
  have h4 : (4 : BitVec 16).toNat = 4 := rfl
  rw [← BitVec.toNat_inj, h4, rsv_eq_div, op_eq_mod, w_eq_div_mod]
  omega

/-- The mask of the opcode map keeps RSV and OP and drops W (30_encoding.md R66). -/
theorem toNat_masked_cmd (c : Command) : (c.cmd &&& 0xF80F).toNat = 2 ^ 11 * c.rsv + c.op := by
  have hop : c.op < 2 ^ 11 := by
    rw [op_eq_mod]
    omega
  have hmask : (0xF80F : BitVec 16).toNat = 2 ^ 11 * (2 ^ 5 - 1) + (2 ^ 4 - 1) := rfl
  refine Nat.eq_of_testBit_eq fun p => ?_
  rw [BitVec.toNat_and, hmask, Nat.testBit_and, Nat.testBit_two_pow_mul_add _ (by decide),
    Nat.testBit_two_pow_mul_add _ hop, Command.rsv, Command.op]
  simp only [Nat.testBit_two_pow_sub_one, BitVec.testBit_toNat, BitVec.getLsbD_extractLsb']
  split
  · rw [Nat.zero_add, Bool.and_comm]
  · rw [Nat.add_sub_of_le (by omega), Bool.and_comm]

theorem masked_cmd_eq_iff (c : Command) {k : Nat} (hk : k < 16) :
    c.cmd &&& 0xF80F = BitVec.ofNat 16 k ↔ c.rsv = 0 ∧ c.op = k := by
  rw [← BitVec.toNat_inj, toNat_masked_cmd, BitVec.toNat_ofNat, op_eq_mod]
  omega

/-! ### Encode and decode -/

/-- What the decoder reads in a word 16 × w + OP whose operands fit: the instruction OP names, with those operands
(30_encoding.md R69, R73). -/
theorem decode_word_eq_ok_iff {w n o : Nat} {v : Word64} {i : Instr}
    (h : (widthEncodable w && indexEncodable n) = true) (ho : o < 16) :
    decode ⟨BitVec.ofNat 16 (16 * w + o), BitVec.ofNat 64 n, v⟩ = .ok i ↔
      (o = 1 ∧ i = .get w n) ∨ (o = 2 ∧ i = .set w n v) ∨ (o = 3 ∧ i = .packs w n) ∨
      (o = 4 ∧ w = 0 ∧ i = .wsel n) := by
  obtain ⟨hw, hn⟩ := Bool.and_eq_true_iff.1 h
  obtain ⟨hop, hwid, hrsv⟩ := fields_of_word (of_decide_eq_true hw) ho (BitVec.ofNat 64 n) v
  have hidx : (BitVec.ofNat 64 n).toNat = n := Nat.mod_eq_of_lt (of_decide_eq_true hn)
  rw [decode_eq_ok_iff, hop, hwid, hrsv, hidx, and_iff_right rfl]

/-- A word that decodes has a clear reserved field, so it is the word of its W and OP. -/
theorem encode_of_decode {c : Command} {i : Instr} (h : decode c = .ok i) :
    (encode i).cmd = c.cmd ∧ (encode i).idx = c.idx := by
  obtain ⟨hr, hi⟩ := decode_ok h
  have hidx : BitVec.ofNat 64 c.idx.toNat = c.idx := by rw [BitVec.ofNat_toNat, BitVec.setWidth_eq]
  obtain ⟨ho, rfl⟩ | ⟨ho, rfl⟩ | ⟨ho, rfl⟩ | ⟨ho, hw, rfl⟩ := hi
  · exact ⟨cmd_of_fields hr rfl ho, hidx⟩
  · exact ⟨cmd_of_fields hr rfl ho, hidx⟩
  · exact ⟨cmd_of_fields hr rfl ho, hidx⟩
  · exact ⟨cmd_of_fields hr hw ho, hidx⟩

open Sys2Proof.Machine

theorem rejectFault_cases (r : DecodeReject) : rejectFault r = .fOpcode ∨ rejectFault r = .fReserved := by
  cases r
  · exact .inl rfl
  · exact .inr rfl
  · exact .inr rfl

/-- Settles O2: each encoding is a word 16 × w + OP, WSEL's with w = 0. -/
theorem decodeEncode : Obligations.DecodeEncode := by
  intro i h
  cases i with
  | get w i => exact (decode_word_eq_ok_iff (o := 1) h (by decide)).2 (.inl ⟨rfl, rfl⟩)
  | set w i v => exact (decode_word_eq_ok_iff (o := 2) h (by decide)).2 (.inr (.inl ⟨rfl, rfl⟩))
  | packs w n => exact (decode_word_eq_ok_iff (o := 3) h (by decide)).2 (.inr (.inr (.inl ⟨rfl, rfl⟩)))
  | wsel n => exact (decode_word_eq_ok_iff (w := 0) (o := 4) h (by decide)).2 (.inr (.inr (.inr ⟨rfl, rfl, rfl⟩)))

/-- Settles O3: the fields that decode hold no more than their bits, and the word is put together from them again. -/
theorem encodeDecode : Obligations.EncodeDecode := by
  intro c i h
  obtain ⟨hcmd, hidx⟩ := encode_of_decode h
  refine ⟨wellFormed_of_decode h, hcmd, hidx, ?_⟩
  rintro w n v rfl
  obtain ⟨-, -, -, -, hv⟩ := decode_eq_set_iff.1 h
  exact hv

/-- Settles O4: under the mask a word shows RSV and OP, which select the operation; what none of the four rows
matches does not decode, and its step raises the reject's fault. -/
theorem opcodeMapByMatchAndMask : Obligations.OpcodeMapByMatchAndMask := by
  intro c
  have hget := (decodes_get_iff c).trans (masked_cmd_eq_iff c (k := 1) (by decide)).symm
  have hset := (decodes_set_iff c).trans (masked_cmd_eq_iff c (k := 2) (by decide)).symm
  have hpacks := (decodes_packs_iff c).trans (masked_cmd_eq_iff c (k := 3) (by decide)).symm
  have hwsel := (decodes_wsel_iff c).trans (cmd_eq_four_iff c).symm
  refine ⟨hget, hset, hpacks, hwsel, fun h1 h2 h3 h4 s rest hf hp => ?_⟩
  rw [step_of_issue hf hp]
  cases hd : decode c with
  | error r =>
    refine ⟨_, rfl, ?_⟩
    simpa using rejectFault_cases r
  | ok i =>
    cases i with
    | get w i => exact absurd (hget.1 ⟨w, i, hd⟩) h1
    | set w i v => exact absurd (hset.1 ⟨w, i, v, hd⟩) h2
    | packs w n => exact absurd (hpacks.1 ⟨w, n, hd⟩) h3
    | wsel n => exact absurd (hwsel.1 ⟨n, hd⟩) h4

/-- Settles O1: each example is an encoding read both ways (`decodeEncode`); 0x0000 has the reserved OP 0. -/
theorem encodingExamples : Obligations.EncodingExamples :=
  ⟨⟨rfl, decodeEncode (.get 13 5) (by decide)⟩,
    ⟨rfl, decodeEncode (.set 64 0 0xFEDCBA9876543210) (by decide)⟩,
    ⟨rfl, decodeEncode (.packs 1 1000001) (by decide)⟩,
    ⟨rfl, decodeEncode (.wsel 13) (by decide)⟩,
    fun _ _ => ⟨decode_of_reserved_op (.inl rfl), rfl⟩⟩

end Sys2Proof
end

section
/-! PROOFS. Non-interference of VAL (30_encoding.md R64): `withVal` changes the VAL a SET carries, the decoder
commutes with it, and SET stores the low W bits alone. -/

namespace Sys2Proof

/-- The instruction with VAL replaced; only SET carries one. -/
def Instr.withVal (v : Word64) : Instr → Instr
  | .get w i => .get w i
  | .set w i _ => .set w i v
  | .packs w n => .packs w n
  | .wsel n => .wsel n

/-- The decoder passes VAL on and reads it nowhere. -/
theorem decode_withVal (c : Command) (v : Word64) :
    decode { c with val := v } = (decode c).map (Instr.withVal v) := by
  simp only [decode, apply_ite (Except.map (Instr.withVal v))]
  rfl

namespace Machine

/-- The stored value depends on the low `w` bits of VAL alone (40_codec.md R103). -/
theorem truncateTo_congr {wb w : Nat} {v v' : Word64} (h : ∀ p, p < w → v.getLsbD p = v'.getLsbD p) :
    truncateTo wb w v = truncateTo wb w v' := by
  refine BitVec.eq_of_getLsbD_eq fun p _ => ?_
  rw [truncateTo_getLsbD, truncateTo_getLsbD]
  by_cases hp : p < w
  · rw [h p hp]
  · simp [hp]

theorem setPort_congr {wb w i : Nat} {v v' : Word64} (h : ∀ p, p < w → v.getLsbD p = v'.getLsbD p) :
    setPort wb w i v = setPort wb w i v' := by
  by_cases h1 : w = 1
  · subst h1
    simp only [setPort, if_pos, setBitPort, truncateTo_congr h]
  · simp only [setPort, if_neg h1, setGeneralPort, truncateTo_congr h]

/-- A command's effect is the same for a VAL that agrees, in the low W bits, with the one a SET carries. -/
theorem exec_withVal {i : Instr} {v : Word64}
    (h : ∀ w n u, i = .set w n u → ∀ p, p < w → v.getLsbD p = u.getLsbD p) (s : State) :
    exec (i.withVal v) s = exec i s := by
  cases i with
  | get w i => rfl
  | set w i u =>
    change execSet w i v s = execSet w i u s
    rw [execSet, execSet, setPort_congr (h w i u rfl)]
  | packs w n => rfl
  | wsel n => rfl

theorem issueCommand_withVal {c : Command} {v : Word64}
    (h : c.op = 2 → ∀ p, p < c.w → v.getLsbD p = c.val.getLsbD p) (s : State) :
    issueCommand { c with val := v } s = issueCommand c s := by
  rw [issueCommand, issueCommand, decode_withVal]
  cases hd : decode c with
  | error r => rfl
  | ok i =>
    refine congrArg (ifRunning s) (exec_withVal ?_ s)
    rintro w n u rfl
    obtain ⟨-, ho, rfl, -, rfl⟩ := decode_eq_set_iff.1 hd
    exact h ho

/-- A step that issues a command reads VAL for SET alone, and then its low W bits. -/
theorem step_issue_withVal {c : Command} {v : Word64}
    (h : c.op = 2 → ∀ p, p < c.w → v.getLsbD p = c.val.getLsbD p) (s : State) (rest : List HostAction) :
    step { s with pending := .issue { c with val := v } :: rest } =
      step { s with pending := .issue c :: rest } :=
  congrArg (ifRunning s) (issueCommand_withVal h { s with pending := rest })

end Machine

open Sys2Proof.Machine

/-- Settles O7: with an OP other than 2 the premise of `step_issue_withVal` is void; with OP 2 it is the statement's
own. -/
theorem valReadBySetOnly : Obligations.ValReadBySetOnly := by
  refine ⟨fun s c v rest ho => ?_, fun s c v rest _ hv => ?_⟩
  · exact step_issue_withVal (fun h => absurd (op_eq_mod c ▸ h) ho) s rest
  · exact step_issue_withVal (fun _ p hp => hv p (w_eq_div_mod c ▸ hp)) s rest

end Sys2Proof
end

section
/-! PROOFS. The derivation functions of 40_codec.md section 1 as numbers: the masks (R81 to R83), the place of an
element (R85 to R87), the shift amounts (R89), and wrapping index arithmetic (R113). -/

namespace Sys2Proof.Machine

/-! ### Masks -/

section

variable {wb w da s : Nat}

/-- The number whose set bits are the `n` lowest. -/
theorem toNat_eq_of_low_bits {n : Nat} {x : BitVec wb} (h : ∀ p, x.getLsbD p = decide (p < n)) :
    x.toNat = 2 ^ n - 1 := by
  refine Nat.eq_of_testBit_eq fun p => ?_
  rw [BitVec.testBit_toNat, h, Nat.testBit_two_pow_sub_one]

theorem mask_toNat (h8 : 8 ≤ wb) (h1 : 1 ≤ w) (hw : w ≤ wb) : (mask wb w).toNat = 2 ^ w - 1 :=
  toNat_eq_of_low_bits (mask_getLsbD h8 h1 hw)

theorem lowMask_toNat (h : s < wb) : (lowMask wb s).toNat = 2 ^ s - 1 :=
  toNat_eq_of_low_bits (lowMask_getLsbD h)

theorem mask_full (h8 : 8 ≤ wb) : mask wb wb = ones wb := by
  refine BitVec.eq_of_toNat_eq ?_
  rw [mask_toNat h8 (by omega) (Nat.le_refl wb), ones, BitVec.toNat_allOnes]

theorem lowMask_zero (h : 0 < wb) : lowMask wb 0 = 0 :=
  BitVec.eq_of_toNat_eq (lowMask_toNat h)

/-- The high mask is built by the two shifts of the element mask of width `da + w` (40_codec.md R81, R83). -/
theorem highMask_eq_not_mask : highMask wb da w = ~~~ mask wb (da + w) := by
  rw [highMask, mask, BitVec.not_not]

/-- No bit lies above an element that ends with the word (40_codec.md R83). -/
theorem highMask_of_end (h8 : 8 ≤ wb) (h : da + w = wb) : highMask wb da w = 0 := by
  rw [highMask_eq_not_mask, h, mask_full h8, ones, BitVec.not_allOnes]
  rfl

/-- The inner shift of `Mask(WORD_BITS)` leaves the top bit of ONES alone (40_codec.md R81). -/
theorem shl_ones_top (h : 0 < wb) : shl (ones wb) (wb - 1) = BitVec.twoPow wb (wb - 1) := by
  refine BitVec.eq_of_getLsbD_eq fun p hp => ?_
  rw [shl_getLsbD _ (by omega), ones, BitVec.getLsbD_allOnes, BitVec.getLsbD_twoPow, decide_eq_true hp,
    decide_eq_true (by omega : p - (wb - 1) < wb), decide_eq_true (by omega : wb - 1 < wb),
    Bool.true_and, Bool.and_true, Bool.true_and]
  exact decide_eq_decide.2 (by omega)

end

/-! ### The place of an element -/

variable {c : Config} {w i : Nat}

/-- An element over two words: it ends beyond word a, in word a + 1 (40_codec.md R85(a), (b)). -/
theorem locate_straddle (h1 : 1 ≤ w) (hw : w ≤ c.wb) (h : (locate c.wb w i).a ≠ (locate c.wb w i).b) :
    c.wb < (locate c.wb w i).da + w ∧ (locate c.wb w i).b = (locate c.wb w i).a + 1 := by
  have h8 := (wb_bounds c).1
  have hs : c.wb < (locate c.wb w i).da + w :=
    Nat.lt_of_not_le (mt (locate_a_eq_b_iff (by omega) h1 hw).2 h)
  exact ⟨hs, locate_split (by omega) hw hs⟩

/-- An element of the full width is a word (40_codec.md R87). -/
theorem locate_full {wb : Nat} (h : 0 < wb) (i : Nat) : locate wb wb i = { j := i * wb, a := i, b := i, da := 0 } := by
  have hb : (i * wb + wb - 1) / wb = i := (div_mod_of_split (r := wb - 1) (by omega) (by omega)).1
  rw [locate, Nat.mul_div_cancel i h, hb, Nat.mul_mod_left]

/-- An aligned width leaves room for the whole element from its start in word a (40_codec.md R86). -/
theorem locate_aligned {wb : Nat} (hb : 0 < wb) (hdvd : w ∣ wb) (i : Nat) : (locate wb w i).da + w ≤ wb := by
  have hd := locate_da_lt hb w i
  have hda : w ∣ (locate wb w i).da := (Nat.dvd_mod_iff hdvd).2 (Nat.dvd_mul_left w i)
  have hw : w ≤ wb - (locate wb w i).da := Nat.le_of_dvd (by omega) (Nat.dvd_sub hdvd hda)
  omega

/-! ### Wrapping arithmetic -/

theorem toNat_ofNat_of_lt {n : Nat} (h : n < 2 ^ 64) : (BitVec.ofNat 64 n).toNat = n :=
  Nat.mod_eq_of_lt h

/-- `j + w - 1` on 64-bit words, where `j + w` may be 2^64 and wrap to 0 (40_codec.md R113). -/
theorem wrapping_last_bit (h1 : 1 ≤ w) :
    BitVec.ofNat 64 i * BitVec.ofNat 64 w + BitVec.ofNat 64 w - 1 = BitVec.ofNat 64 (i * w + w - 1) := by
  rw [← BitVec.ofNat_mul, ← BitVec.ofNat_add]
  exact BitVec.ofNat_sub_ofNat_of_le (i * w + w) 1 (by decide) (by omega)

end Sys2Proof.Machine

namespace Sys2Proof

open Sys2Proof.Machine

/-- Settles O31: the mask has the `w` low bits; for the full word the shifts are those of an empty high mask. -/
theorem maskValue : Obligations.MaskValue := by
  intro c w h1 hw
  have h8 := (wb_bounds c).1
  have hzero : shl (shl (ones c.wb) (c.wb - 1)) 1 = 0 := by
    rw [← highMask_of_end h8 (Nat.zero_add c.wb), highMask, Nat.zero_add]
  exact ⟨mask_toNat h8 h1 hw, rfl, by omega, by omega, shl_ones_top (by omega), hzero, mask_full h8⟩

/-- Settles O32: the low mask has the `s` low bits. -/
theorem lowMaskValue : Obligations.LowMaskValue :=
  fun _ _ hs => ⟨lowMask_toNat hs, rfl, lowMask_zero (by omega)⟩

/-- Settles O33: the high mask is the complement of the mask of width `da + w`. -/
theorem highMaskValue : Obligations.HighMaskValue := by
  intro c da w h1 hw
  have h8 := (wb_bounds c).1
  refine ⟨?_, highMask_of_end h8, by omega⟩
  rw [highMask_eq_not_mask, BitVec.toNat_not, mask_toNat h8 (by omega) hw]

/-- Settles O34: an element ends in word a, or `locate_straddle` says where. -/
theorem locateFacts : Obligations.LocateFacts := by
  intro c w i h1 hw l
  have h8 := (wb_bounds c).1
  have hd : l.da < c.wb := locate_da_lt (by omega) w i
  have hstraddle := locate_straddle (c := c) (i := i) h1 hw
  refine ⟨?_, locate_a_eq_b_iff (by omega) h1 hw, fun hab => ?_, locate_b_lt (by omega) h1, ?_⟩
  · by_cases hab : l.a = l.b
    · exact .inl hab.symm
    · exact .inr (hstraddle hab).2
  · have hs : c.wb < l.da + w := (hstraddle hab).1
    omega
  · rintro rfl
    simp [l, locate_one]

/-- Settles O35: an aligned width divides `da` with WORD_BITS; the divisors of 64 are listed; index 0 starts at
bit 0. -/
theorem alignedWidthsNeverStraddle : Obligations.AlignedWidthsNeverStraddle := by
  refine ⟨fun c w i h1 hdvd => ?_, by decide, fun c w h1 hw => ⟨0, ?_⟩⟩
  · have h8 := (wb_bounds c).1
    exact (locate_infix h1 (locate_aligned (by omega) (Nat.dvd_of_mod_eq_zero hdvd) i)).symm
  · exact (locate_infix h1 (by simpa [locate] using hw)).symm

/-- Settles O37: a straddling element is narrower than the word, since a full word is one word. -/
theorem shiftInventory : Obligations.ShiftInventory := by
  intro c w i h1 hw l
  have h8 := (wb_bounds c).1
  have hd : l.da < c.wb := locate_da_lt (by omega) w i
  have hi : i % c.wb < c.wb := Nat.mod_lt i (by omega)
  refine ⟨by omega, by omega, by omega, by omega, fun hab => ?_, fun hab => ?_⟩
  · have hfit : l.da + w ≤ c.wb := (locate_a_eq_b_iff (by omega) h1 hw).1 hab
    omega
  · have hs : c.wb < l.da + w := (locate_straddle h1 hw hab).1
    have hne : w ≠ c.wb := by
      rintro rfl
      exact hab (by simp [l, locate_full (by omega : 0 < c.wb)])
    unfold splitBits
    omega

/-- Settles O38: the index check bounds `j + w` by 2^64, so `j` and `j + w - 1` are their own residues. -/
theorem wrappingArithmeticAgrees : Obligations.WrappingArithmeticAgrees := by
  intro c w i hsize ⟨h1, hw, _, hi⟩ j wb
  have h64 := (wb_bounds c).2
  rw [Nat.succ_mul] at hi
  have hj : j.toNat = i * w := by
    rw [show j = BitVec.ofNat 64 (i * w) from (BitVec.ofNat_mul i w).symm, toNat_ofNat_of_lt (by omega)]
  have hwb : wb.toNat = c.wb := toNat_ofNat_of_lt (by omega)
  refine ⟨by omega, hj, ?_, ?_, ?_⟩
  · rw [BitVec.toNat_udiv, hj, hwb]
    rfl
  · rw [BitVec.toNat_udiv, wrapping_last_bit h1, toNat_ofNat_of_lt (by omega), hwb]
    rfl
  · rw [BitVec.toNat_umod, hj, hwb]
    rfl

end Sys2Proof
end

section
/-! PROOFS. GET and SET of an accepted element (40_codec.md R87, R101 to R108): the next state, the words read and
written bit by bit, and the accesses at the memory port in their order. -/

namespace Sys2Proof.Machine

variable {c : Config} {w i k : Nat} {m : Memory} {s t : State} {v : Word64}

/-! ### The accesses of a port program -/

@[simp] theorem accesses_done (r : Option Word64) : PortProg.accesses c (.done r) m = [] := rfl

theorem accesses_read (hk : k < c.bufWords) (rest : BitVec c.wb → PortProg c.wb) :
    PortProg.accesses c (.read k rest) m =
      .read k (m.word c k) :: PortProg.accesses c (rest (m.word c k)) m :=
  if_pos hk

theorem accesses_write (hk : k < c.bufWords) (x : BitVec c.wb) (rest : PortProg c.wb) :
    PortProg.accesses c (.write k x rest) m = .write k x :: PortProg.accesses c rest (m.setWord c k x) :=
  if_pos hk

/-! ### GET -/

/-- GET of an accepted element completes with the value that has the element's bits (40_codec.md R110(b)). -/
theorem execGet_of_bits (hf : s.fault = none) (ha : CodecAccepts s.cfg w i)
    (hv : ∀ p, v.getLsbD p = (decide (p < w) && s.bufBit (i * w + p))) :
    exec (.get w i) s = .next { s with res := some v } := by
  have ⟨h1, hw, _, hi⟩ := ha
  obtain ⟨v', hrun, hv'⟩ := getPort_bits h1 hw hi s.buf
  obtain rfl : v' = v := BitVec.eq_of_getLsbD_eq fun p _ => (hv' p).trans (hv p).symm
  exact (execGet_of_accepts hf ha).trans (runPort_of_ok hrun)

/-- A word with no bit but bit 0 is 1 or 0. -/
theorem eq_ite_of_single_bit {wb : Nat} {x : BitVec wb} {b : Bool} (h8 : 8 ≤ wb)
    (h : ∀ p < wb, x.getLsbD p = (decide (p < 1) && b)) : x = if b then 1 else 0 := by
  refine BitVec.eq_of_getLsbD_eq fun p hp => ?_
  rw [h p hp]
  cases b
  · simp
  · rw [if_pos rfl, one_getLsbD h8, Bool.and_true]
    exact decide_eq_decide.2 Nat.lt_one_iff

/-! ### SET -/

/-- SET of an accepted element leaves the buffer its port program leaves. -/
theorem execSet_of_run (hf : s.fault = none) (ha : CodecAccepts s.cfg w i)
    (hrun : (setPort s.cfg.wb w i v).run s.cfg s.buf = .ok (m, none)) :
    exec (.set w i v) s = .next { s with buf := m } := by
  change execSet w i v s = _
  rw [execSet, ifRunning_of_none hf, checkCodec_of_accepts ha, unlessFault_none, runPort_of_ok hrun, Option.none_or]

theorem execSet_of_accepts (hf : s.fault = none) (ha : CodecAccepts s.cfg w i) :
    exec (.set w i v) s = .next { s with buf := setMemory s.cfg w i v s.buf } := by
  have ⟨h1, _, _, hi⟩ := ha
  exact execSet_of_run hf ha (setPort_run h1 hi v s.buf)

/-- SET of a straddling element: word a is written before word b is read (40_codec.md R106). -/
theorem setPort_split (v : Word64) (h : (locate c.wb w i).a ≠ (locate c.wb w i).b) :
    setPort c.wb w i v = .read (locate c.wb w i).a fun wa =>
      .write (locate c.wb w i).a (splitLeftWord (locate c.wb w i).da (truncateTo c.wb w v) wa) <|
      .read (locate c.wb w i).b fun xb =>
        .write (locate c.wb w i).b (splitRightWord w (locate c.wb w i).da (truncateTo c.wb w v) xb) (.done none) := by
  have h1 : w ≠ 1 := by
    rintro rfl
    simp [locate_one] at h
  simp only [setPort, if_neg h1, setGeneralPort, if_neg h]

theorem setMemory_infix (h : (locate c.wb w i).a = (locate c.wb w i).b) :
    setMemory c w i v m = m.setWord c (locate c.wb w i).a
      (infixWord w (locate c.wb w i).da (truncateTo c.wb w v) (m.word c (locate c.wb w i).a)) :=
  if_pos h

theorem setMemory_word_infix (hm : m.wf) (h : (locate c.wb w i).a = (locate c.wb w i).b) :
    (setMemory c w i v m).word c (locate c.wb w i).a =
      infixWord w (locate c.wb w i).da (truncateTo c.wb w v) (m.word c (locate c.wb w i).a) := by
  rw [setMemory_infix h, word_setWord hm, if_pos rfl]

theorem setMemory_word_left (hm : m.wf) (h : (locate c.wb w i).a ≠ (locate c.wb w i).b) :
    (setMemory c w i v m).word c (locate c.wb w i).a =
      splitLeftWord (locate c.wb w i).da (truncateTo c.wb w v) (m.word c (locate c.wb w i).a) := by
  rw [setMemory, if_neg h, word_setWord (wf_setWord _ _ hm), if_neg h, word_setWord hm, if_pos rfl]

theorem setMemory_word_right (hm : m.wf) (h : (locate c.wb w i).a ≠ (locate c.wb w i).b) :
    (setMemory c w i v m).word c (locate c.wb w i).b =
      splitRightWord w (locate c.wb w i).da (truncateTo c.wb w v) (m.word c (locate c.wb w i).b) := by
  rw [setMemory, if_neg h, word_setWord (wf_setWord _ _ hm), if_pos rfl, word_setWord hm, if_neg h.symm]

/-- At the full width SET keeps nothing of the word it reads (40_codec.md R87). -/
theorem infixWord_full {wb : Nat} (h8 : 8 ≤ wb) (x : BitVec wb) :
    infixWord wb 0 (truncateTo wb wb v) x = v.setWidth wb := by
  refine BitVec.eq_of_getLsbD_eq fun p hp => ?_
  rw [infixWord_getLsbD h8 (by omega) (by omega), if_pos (by omega), BitVec.getLsbD_setWidth, decide_eq_true hp,
    Bool.true_and, Nat.sub_zero]

/-- At width 1 SET stores bit 0 of VAL (40_codec.md R108). -/
theorem truncateTo_one {wb : Nat} (h8 : 8 ≤ wb) (v : Word64) :
    truncateTo wb 1 v = if v.getLsbD 0 then 1 else 0 := by
  refine eq_ite_of_single_bit h8 fun p hp => ?_
  rw [truncateTo_getLsbD, decide_eq_true hp, Bool.true_and]
  by_cases h0 : p = 0
  · rw [h0]
  · simp [h0]

/-- The single-bit path of SET with its shifts and its bit written out (40_codec.md R108). -/
theorem setPort_one (v : Word64) :
    setPort c.wb 1 i v = .read (i / c.wb) fun wk =>
      .write (i / c.wb) ((wk &&& ~~~ ((1 : BitVec c.wb) <<< (i % c.wb))) |||
        ((if v.getLsbD 0 then 1 else 0 : BitVec c.wb) <<< (i % c.wb))) (.done none) := by
  have h8 := (wb_bounds c).1
  have hs : i % c.wb < c.wb := Nat.mod_lt i (by omega)
  simp only [setPort, if_pos, setBitPort, shl_of_lt _ hs, truncateTo_one h8]

end Sys2Proof.Machine

namespace Sys2Proof

open Sys2Proof.Machine

/-- Settles O40: both paths answer the value with the element's one bit. -/
theorem getSingleBit : Obligations.GetSingleBit := by
  intro s i hf ha v
  have ⟨h1, hw, _, hi⟩ := ha
  obtain ⟨hk, -⟩ := locate_lt_of_accepts ha
  rw [locate_one] at hk
  obtain ⟨x, hrun, hx⟩ := getGeneralPort_bits h1 hw hi s.buf
  have hxv : x = v := by
    refine eq_ite_of_single_bit (by decide) fun p _ => (hx p).trans ?_
    by_cases hp : p = 0
    · rw [hp, Nat.mul_one, Nat.add_zero, Memory.bit]
    · simp [hp]
  subst hxv
  refine ⟨execGet_of_bits hf ha hx, ?_, hrun⟩
  rw [getPort, if_pos rfl, getBitPort, accesses_read hk, accesses_done]

/-- Settles O41: the reads of the two cases of Locate. -/
theorem getGeneralAccesses : Obligations.GetGeneralAccesses := by
  intro s w i ha h1 l
  obtain ⟨hka, hkb⟩ := locate_lt_of_accepts ha
  by_cases hab : l.a = l.b
  · rw [if_pos hab, getPort, if_neg h1, getGeneralPort, accesses_read hka, if_pos hab, accesses_done]
  · rw [if_neg hab, getPort_split hab, accesses_read hka, accesses_read hkb, accesses_done]

/-- Settles O42: `setMemory` is the buffer SET leaves, and `setMemory_bit` its bits. -/
theorem setWritesTheElement : Obligations.SetWritesTheElement := by
  intro s w i v hf hs ha
  have ⟨h1, hw, _, _⟩ := ha
  obtain ⟨-, hbuf, -⟩ := wf_iff.1 hs
  exact ⟨_, execSet_of_accepts hf ha, setMemory_bit hbuf h1 hw v⟩

/-- Settles O43: word a becomes `infixWord`, written once. -/
theorem infixWriteBitByBit : Obligations.InfixWriteBitByBit := by
  intro s w i v hf hs ha hab
  have ⟨h1, hw, _, _⟩ := ha
  have h8 := (wb_bounds s.cfg).1
  have hfit := (locate_a_eq_b_iff (by omega) h1 hw).1 hab
  obtain ⟨-, hbuf, -⟩ := wf_iff.1 hs
  obtain ⟨hka, -⟩ := locate_lt_of_accepts ha
  refine ⟨_, execSet_of_accepts hf ha, fun p _ => ?_,
    fun k hk => setMemory_word_other hbuf v hk (hab ▸ hk), ?_⟩
  · rw [setMemory_word_infix hbuf hab, infixWord_getLsbD h8 h1 hfit]
  · rw [setMemory_word_infix hbuf hab, setPort_infix v hab, accesses_read hka, accesses_write hka, accesses_done]

/-- Settles O44: word a becomes `splitLeftWord`, then word b = a + 1 becomes `splitRightWord` of what it held. -/
theorem splitWriteBitByBit : Obligations.SplitWriteBitByBit := by
  intro s w i v hf hs ha hab
  have ⟨h1, hw, _, _⟩ := ha
  have h8 := (wb_bounds s.cfg).1
  have hd := locate_da_lt (wb := s.cfg.wb) (by omega) w i
  obtain ⟨hstraddle, hb⟩ := locate_straddle h1 hw hab
  obtain ⟨-, hbuf, -⟩ := wf_iff.1 hs
  obtain ⟨hka, hkb⟩ := locate_lt_of_accepts ha
  refine ⟨_, execSet_of_accepts hf ha, fun p hp => ?_, fun p _ => ?_,
    fun k => setMemory_word_other hbuf v, hb, ?_⟩
  · rw [setMemory_word_left hbuf hab, splitLeftWord_getLsbD hd hstraddle]
    exact if_congr (and_iff_left hp) rfl rfl
  · rw [setMemory_word_right hbuf hab, splitRightWord_getLsbD hd hw hstraddle]
  · rw [setMemory_word_left hbuf hab, setMemory_word_right hbuf hab, setPort_split v hab, accesses_read hka,
      accesses_write hka, accesses_read hkb, accesses_write hkb, accesses_done, word_setWord hbuf,
      if_neg hab.symm]

/-- Settles O45: the single-bit path with its shifts in range. -/
theorem setSingleBit : Obligations.SetSingleBit := by
  intro s i v hf ha wk bit wk'
  obtain ⟨hk, -⟩ := locate_lt_of_accepts ha
  rw [locate_one] at hk
  refine ⟨execSet_of_run hf ha ?_, ?_⟩
  · rw [setPort_one, run_read hk, run_write hk, run_done]
  · rw [setPort_one, accesses_read hk, accesses_write hk, accesses_done]

/-- Settles O36: the element of the full width is word `i`, with no bit outside it. -/
theorem fullWordWidth : Obligations.FullWordWidth := by
  intro s i v hf ha
  obtain ⟨h8, h64⟩ := wb_bounds s.cfg
  have hloc := locate_full (by omega : 0 < s.cfg.wb) i
  refine ⟨hloc, mask_full h8, lowMask_zero (by omega), highMask_of_end h8 (Nat.zero_add _),
    execGet_of_bits hf ha fun p => ?_, ?_⟩
  · rw [← zext64, zext64_getLsbD h64]
    by_cases hp : p < s.cfg.wb
    · rw [State.bufBit, bit_mul_add s.buf i hp, decide_eq_true hp, Bool.true_and]
    · rw [BitVec.getLsbD_of_ge _ _ (by omega), decide_eq_false hp, Bool.false_and]
  · rw [execSet_of_accepts hf ha, setMemory_infix (by rw [hloc]), hloc, infixWord_full h8]

end Sys2Proof
end

section
/-! PROOFS. What GET and SET read and what they leave, whole commands at a time (40_codec.md R109 to R112): the frames,
the round trip, independence of other elements, RES, and the two paths of width 1. -/

namespace Sys2Proof.Machine

variable {c : Config} {w i i' p : Nat} {m : Memory} {s t : State} {v : Word64}

theorem accepts_of_checkCodec (h : checkCodec c w i = none) : CodecAccepts c w i := by
  obtain ⟨⟨⟨h1, hw⟩, hfix⟩, hi⟩ := checkCodec_eq_none.1 h
  exact ⟨h1, hw, hfix, hi⟩

/-- A GET that completes passed its checks. -/
theorem accepts_of_execGet (h : exec (.get w i) s = .next t) (ht : t.fault = none) :
    s.fault = none ∧ CodecAccepts s.cfg w i := by
  obtain ⟨hf, ⟨f, -, rfl⟩ | ⟨hc, -⟩⟩ := execGet_next h
  · simp at ht
  · exact ⟨hf, accepts_of_checkCodec hc⟩

/-- A SET of an accepted element can only complete. -/
theorem execSet_next_of_accepts (ha : CodecAccepts s.cfg w i) (h : exec (.set w i v) s = .next t) :
    s.fault = none ∧ t = { s with buf := setMemory s.cfg w i v s.buf } := by
  obtain ⟨hf, ⟨f, hc, -⟩ | ⟨-, ht⟩⟩ := execSet_next h
  · rw [checkCodec_of_accepts ha] at hc
    cases hc
  · exact ⟨hf, ht⟩

/-! ### The bytes SET leaves -/

theorem readByte_setMemory_other {n : Nat} (hm : m.wf) (ha : n / c.wordBits.bytes ≠ (locate c.wb w i).a)
    (hb : n / c.wordBits.bytes ≠ (locate c.wb w i).b) : (setMemory c w i v m).readByte n = m.readByte n := by
  by_cases hab : (locate c.wb w i).a = (locate c.wb w i).b
  · rw [setMemory, if_pos hab, readByte_setWord_other hm ha]
  · rw [setMemory, if_neg hab, readByte_setWord_other (wf_setWord _ _ hm) hb, readByte_setWord_other hm ha]

/-! ### The bits of the element, and of another one -/

/-- Bits that are compared inside the element alone. -/
theorem decide_and_congr {q : Prop} [Decidable q] {a b : Bool} (h : q → a = b) :
    (decide q && a) = (decide q && b) := by
  by_cases hq : q
  · rw [h hq]
  · rw [decide_eq_false hq, Bool.false_and, Bool.false_and]

/-- The bits of the written element are the low bits of VAL (40_codec.md R103, R110(c)). -/
theorem setMemory_bit_same (hm : m.wf) (ha : CodecAccepts c w i) (hp : p < w) :
    (setMemory c w i v m).bit c (i * w + p) = v.getLsbD p := by
  have ⟨h1, hw, _, _⟩ := ha
  rw [setMemory_bit hm h1 hw, if_pos (by omega), Nat.add_sub_cancel_left]

/-- The elements of one width do not overlap. -/
theorem element_disjoint (hne : i' ≠ i) (hp : p < w) : ¬ (i * w ≤ i' * w + p ∧ i' * w + p < i * w + w) := by
  rcases Nat.lt_or_gt_of_ne hne with h | h
  · have := Nat.mul_le_mul_right w h
    rw [Nat.succ_mul] at this
    omega
  · have := Nat.mul_le_mul_right w h
    rw [Nat.succ_mul] at this
    omega

/-- The bits of every other element are kept (40_codec.md R110(d)). -/
theorem setMemory_bit_other (hm : m.wf) (ha : CodecAccepts c w i) (hne : i' ≠ i) (hp : p < w) :
    (setMemory c w i v m).bit c (i' * w + p) = m.bit c (i' * w + p) := by
  have ⟨h1, hw, _, _⟩ := ha
  rw [setMemory_bit hm h1 hw, if_neg (element_disjoint hne hp)]

/-- VAL cut to `w` bits, bit by bit. -/
theorem and_low_bits_getLsbD (hw : w ≤ 64) (v : Word64) (p : Nat) :
    (v &&& BitVec.ofNat 64 (2 ^ w - 1)).getLsbD p = (decide (p < w) && v.getLsbD p) := by
  rw [BitVec.getLsbD_and, BitVec.getLsbD_ofNat, Nat.testBit_two_pow_sub_one, Bool.and_comm]
  by_cases hp : p < w
  · rw [decide_eq_true (by omega : p < 64), Bool.true_and]
  · rw [decide_eq_false hp, Bool.and_false]

/-! ### RES -/

/-- SET passes RES on and reads it nowhere (40_codec.md R109). -/
theorem execSet_withRes (r : Option Word64) (h : exec (.set w i v) s = .next t) :
    exec (.set w i v) { s with res := r } = .next { t with res := r } := by
  obtain ⟨hf, ⟨f, hc, rfl⟩ | ⟨hc, rfl⟩⟩ := execSet_next h
  · change execSet w i v _ = _
    rw [execSet, ifRunning_of_none (s := { s with res := r }) hf, hc]
    rfl
  · exact execSet_of_accepts (s := { s with res := r }) hf (accepts_of_checkCodec hc)

end Sys2Proof.Machine

namespace Sys2Proof

open Sys2Proof.Machine

/-- Settles O23: such a command only sets FAULT or writes RES. -/
theorem getAndSizingFrame : Obligations.GetAndSizingFrame := by
  intro i s t hi h
  obtain ⟨-, ⟨f, rfl⟩ | ⟨v, rfl⟩ | ⟨w, n, v, hset, -, -⟩⟩ := exec_next h
  · exact ⟨rfl, rfl, rfl, fun _ => rfl, fun _ => rfl, .inr rfl⟩
  · exact ⟨rfl, rfl, rfl, fun _ => rfl, fun _ => rfl, .inl rfl⟩
  · exact absurd hset (hi w n v)

/-- Settles O24: SET only sets FAULT, or writes words a and b. -/
theorem setFrame : Obligations.SetFrame := by
  intro w i v s t hs h
  obtain ⟨-, hbuf, -⟩ := wf_iff.1 hs
  obtain ⟨-, ⟨f, -, rfl⟩ | ⟨-, rfl⟩⟩ := execSet_next h
  · exact ⟨rfl, rfl, rfl, rfl, fun _ _ _ => rfl, .inr rfl⟩
  · exact ⟨rfl, rfl, rfl, rfl, fun n => readByte_setMemory_other hbuf, .inl rfl⟩

/-- Settles O25: a completed GET is the arithmetic on the buffer value (`getReturnsTheElement`), from either state. -/
theorem codecDoesNotReadRes : Obligations.CodecDoesNotReadRes := by
  refine fun w i v r s t => ⟨fun h ht => ?_, execSet_withRes r⟩
  obtain ⟨hf, ha⟩ := accepts_of_execGet h ht
  rw [← h, getReturnsTheElement s w i hf ha]
  exact getReturnsTheElement { s with res := r } w i hf ha

/-- Settles O46: GET finds VAL's low bits in the element's place. -/
theorem roundTrip : Obligations.RoundTrip := by
  intro s t w i v hs ha h
  have ⟨_, hw, _, _⟩ := ha
  have h64 := (wb_bounds s.cfg).2
  obtain ⟨-, hbuf, -⟩ := wf_iff.1 hs
  obtain ⟨hf, rfl⟩ := execSet_next_of_accepts ha h
  refine execGet_of_bits (s := { s with buf := setMemory s.cfg w i v s.buf }) hf ha fun p => ?_
  rw [and_low_bits_getLsbD (by omega)]
  exact decide_and_congr fun hp => (setMemory_bit_same hbuf ha hp).symm

/-- Settles O47: the bits of element `i'` are the same in both buffers. -/
theorem setIsIndependentOfOtherElements : Obligations.SetIsIndependentOfOtherElements := by
  intro s t w i i' v hs ha ha' hne h
  have ⟨h1, hw, _, hi⟩ := ha'
  obtain ⟨-, hbuf, -⟩ := wf_iff.1 hs
  obtain ⟨hf, rfl⟩ := execSet_next_of_accepts ha h
  obtain ⟨x, -, hx⟩ := getPort_bits h1 hw hi s.buf
  refine ⟨x, execGet_of_bits hf ha' hx,
    execGet_of_bits (s := { s with buf := setMemory s.cfg w i v s.buf }) hf ha' fun p => (hx p).trans ?_⟩
  exact decide_and_congr fun hp => (setMemory_bit_other hbuf ha hne hp).symm

/-- Settles O48: GET's paths answer the value with the element's one bit, and SET's leave `setMemory`. -/
theorem singleBitAndGeneralPathsAgree : Obligations.SingleBitAndGeneralPathsAgree := by
  intro c i v m hi
  have hi1 : (i + 1) * 1 ≤ c.bufWords * c.wb := by omega
  have hw := (wb_bounds c).1
  obtain ⟨x, hgen, hx⟩ := getGeneralPort_bits (Nat.le_refl 1) (by omega) hi1 m
  obtain ⟨y, hbit, hy⟩ := getBitPort_bits hi m
  obtain rfl : x = y := BitVec.eq_of_getLsbD_eq fun p _ => (hx p).trans (hy p).symm
  have hset := setBitPort_run hi v m
  exact ⟨hgen.trans hbit.symm, (setGeneralPort_run (Nat.le_refl 1) hi1 v m).trans hset.symm, _, x, hbit, hset⟩

end Sys2Proof
end

section
/-! PROOFS. A compile-time-width instance (00_scope.md R7, 40_codec.md R112): FIXED_W enters the width check of GET and
SET and nothing else. -/

namespace Sys2Proof

/-- The parameters with FIXED_W = `f`. -/
def Config.withFixedW (f : Nat) (c : Config) : Config := { c with fixedW := some f }

namespace Machine

/-- The state on the instance with FIXED_W = `f`. -/
def State.withFixedW (f : Nat) (s : State) : State := { s with cfg := s.cfg.withFixedW f }

variable (f w i : Nat) (s : State)

/-- On a runtime-width instance the codec check passes and faults as with FIXED_W = `w` for the width `w`. -/
theorem checkCodec_withFixedW {c : Config} (h : c.fixedW = none) :
    checkCodec (c.withFixedW w) w i = checkCodec c w i := by
  have hwidth : checkWidth (c.withFixedW w) w = checkWidth c w := by
    simp [checkWidth, h, Config.withFixedW, checkWidthRange, Config.wb]
  rw [checkCodec, hwidth]
  rfl

theorem setWord_withFixedW (c : Config) (m : Memory) (k : Nat) (v : BitVec c.wb) :
    m.setWord (c.withFixedW f) k v = m.setWord c k v := by
  obtain ⟨b, _, _, _, _, _⟩ := c
  cases b <;> rfl

/-- A port program moves the same words, by induction on its accesses. -/
theorem run_withFixedW (c : Config) (p : PortProg c.wb) (m : Memory) :
    PortProg.run (c.withFixedW f) p m = PortProg.run c p m := by
  induction p generalizing m with
  | done r => rfl
  | read k rest ih => exact if_congr Iff.rfl (ih (m.word c k) m) rfl
  | write k v rest ih =>
    refine if_congr Iff.rfl ?_ rfl
    rw [setWord_withFixedW]
    exact ih (m.setWord c k v)

theorem runPort_withFixedW (p : PortProg s.cfg.wb) :
    (s.withFixedW f).runPort p = mapNext (State.withFixedW f) (s.runPort p) := by
  have hrun : PortProg.run (s.withFixedW f).cfg p (s.withFixedW f).buf = p.run s.cfg s.buf :=
    run_withFixedW f s.cfg p s.buf
  unfold State.runPort
  rw [hrun]
  cases p.run s.cfg s.buf <;> rfl

/-- A command behind the codec check of its own width. -/
theorem checked_withFixedW (h : s.cfg.fixedW = none) (p : PortProg s.cfg.wb) :
    ifRunning (s.withFixedW w)
        (unlessFault (s.withFixedW w) (checkCodec (s.withFixedW w).cfg w i) ((s.withFixedW w).runPort p)) =
      mapNext (State.withFixedW w) (ifRunning s (unlessFault s (checkCodec s.cfg w i) (s.runPort p))) := by
  have hcheck : checkCodec (s.withFixedW w).cfg w i = checkCodec s.cfg w i := checkCodec_withFixedW w i h
  rw [hcheck, runPort_withFixedW, unlessFault_mapNext _ fun _ => rfl, ifRunning_mapNext rfl]

/-- The next state of a codec command is the runtime-width instance's but for FIXED_W. -/
theorem next_withFixedW {j : Instr} {t : State}
    (hj : exec j (s.withFixedW f) = mapNext (State.withFixedW f) (exec j s)) (h : exec j s = .next t) :
    exec j (s.withFixedW f) = .next { t with cfg := s.cfg.withFixedW f } := by
  rw [hj, h, ← exec_cfg h]
  rfl

end Machine

open Sys2Proof.Machine

/-- Settles O49: with FIXED_W = `w` the check of the width `w` is the same, and no access reads FIXED_W. -/
theorem fixedWidthInstanceAgrees : Obligations.FixedWidthInstanceAgrees :=
  fun s _ w i _ h =>
    ⟨next_withFixedW w s (checked_withFixedW w i s h _), next_withFixedW w s (checked_withFixedW w i s h _)⟩

end Sys2Proof
end

section
/-! PROOFS. PACKS and WSEL (41_sizing.md R120 to R128): the next state of each, a buffer PACKS sized, and the width
table. -/

namespace Sys2Proof.Machine

variable {c : Config} {s : State} {w n i p : Nat}

/-! ### PACKS -/

theorem exec_packs_of_width (hf : s.fault = none) (h1 : 1 ≤ w) (hw : w ≤ s.cfg.wb) :
    exec (.packs w n) s = .next (s.writeRes (BitVec.ofNat 64 (packsRequired s.cfg.wb n w))) := by
  change execPacks w n s = _
  rw [execPacks, ifRunning_of_none hf, checkWidthRange_eq_none.2 ⟨h1, hw⟩, unlessFault_none]

/-- The PACKS result in RES is the exact number (41_sizing.md R122). -/
theorem packsRequired_toNat (hw : w ≤ c.wb) (hn : n < 2 ^ 64) :
    (BitVec.ofNat 64 (packsRequired c.wb n w)).toNat = packsRequired c.wb n w := by
  obtain ⟨h8, -⟩ := wb_bounds c
  exact toNat_ofNat_of_lt ((packsRequired_le (by omega) hw).trans_lt hn)

/-! ### The index check of a buffer PACKS sized -/

/-- The index check as a bound on the index (60_exceptions.md R144). -/
theorem checkIndex_eq_none_iff_lt_div (h1 : 1 ≤ w) : checkIndex c w i = none ↔ i < c.bufWords * c.wb / w := by
  rw [checkIndex_eq_none, ← Nat.succ_le_iff, Nat.le_div_iff_mul_le h1]

theorem checkIndex_of_lt_of_packsRequired (hc : c.bufWords = packsRequired c.wb n w) (hi : i < n) :
    checkIndex c w i = none := by
  obtain ⟨h8, -⟩ := wb_bounds c
  have hfit : n * w ≤ c.bufWords * c.wb := (packsRequired_le_iff (by omega) n w _).1 hc.ge
  exact checkIndex_eq_none.2 ((Nat.mul_le_mul_right w hi).trans hfit)

/-- A bit of the buffer beyond the `n` elements PACKS sized it for is in its last word: without that word the `n`
elements would still fit, and PACKS answers the least number (`packsRequired_le_iff`). -/
theorem div_succ_eq_packsRequired {wb q : Nat} (h : 0 < wb) (hq : q = packsRequired wb n w) (hlo : n * w ≤ p)
    (hhi : p < q * wb) : p / wb + 1 = q := by
  have hle : p / wb + 1 ≤ q := (Nat.div_lt_iff_lt_mul h).2 hhi
  have hge : q ≤ p / wb + 1 := by
    rw [hq, packsRequired_le_iff h]
    exact hlo.trans (Nat.lt_mul_of_div_lt (Nat.lt_succ_self _) h).le
  exact hle.antisymm hge

/-! ### WSEL -/

theorem exec_wsel_of_le (hf : s.fault = none) (hn : n ≤ 64) :
    exec (.wsel n) s = .next (s.writeRes (BitVec.ofNat 64 (widthSelect n))) := by
  change execWsel n s = _
  rw [execWsel, ifRunning_of_none hf, checkWsel_eq_none.2 hn, unlessFault_none]

theorem exec_wsel_of_gt (hf : s.fault = none) (hn : 64 < n) :
    exec (.wsel n) s = .next (s.raise .fWselRange) := by
  change execWsel n s = _
  rw [execWsel, ifRunning_of_none hf, checkWsel, if_pos hn, unlessFault_some]

theorem widthSelect_of_le_8 (h : n ≤ 8) : widthSelect n = 8 := if_pos h

theorem widthSelect_of_le_16 (h : 9 ≤ n) (h' : n ≤ 16) : widthSelect n = 16 := by
  rw [widthSelect, if_neg (by omega), if_pos h']

theorem widthSelect_of_le_32 (h : 17 ≤ n) (h' : n ≤ 32) : widthSelect n = 32 := by
  rw [widthSelect, if_neg (by omega), if_neg (by omega), if_pos h']

theorem widthSelect_of_ge_33 (h : 33 ≤ n) : widthSelect n = 64 := by
  rw [widthSelect, if_neg (by omega), if_neg (by omega), if_neg (by omega)]

/-- A row of the width table as a next state. -/
theorem exec_wsel_of_widthSelect {r : Nat} (hf : s.fault = none) (hn : n ≤ 64) (hr : widthSelect n = r) :
    exec (.wsel n) s = .next (s.writeRes (BitVec.ofNat 64 r)) :=
  hr ▸ exec_wsel_of_le hf hn

end Sys2Proof.Machine

namespace Sys2Proof

open Sys2Proof.Machine

/-- Settles O50: the result fits RES, and `packsRequired_le_iff` makes it the least number of words. -/
theorem packsReturnsTheCeiling : Obligations.PacksReturnsTheCeiling := by
  intro s w n hf h1 hw hn
  obtain ⟨h8, -⟩ := wb_bounds s.cfg
  refine ⟨_, exec_packs_of_width hf h1 hw, ?_⟩
  rw [packsRequired_toNat hw hn]
  exact ⟨rfl, packsRequired_le (by omega) hw, packsRequired_le_iff (by omega) n w⟩

/-- Settles O51: a bit of an element from N on lies beyond the N elements, hence in the last word. -/
theorem packsSizesTheBuffer : Obligations.PacksSizesTheBuffer := by
  intro c w n h1 _ hc
  refine ⟨fun i => checkIndex_of_lt_of_packsRequired hc, fun i => checkIndex_eq_none_iff_lt_div h1,
    fun i p hn hi hlo hhi => ?_⟩
  obtain ⟨h8, -⟩ := wb_bounds c
  have hbeyond : n * w ≤ p := (Nat.mul_le_mul_right w hn).trans hlo
  have hinside : p < c.bufWords * c.wb := by
    rw [checkIndex_eq_none, Nat.succ_mul] at hi
    omega
  exact ⟨hbeyond, div_succ_eq_packsRequired (by omega) hc hbeyond hinside⟩

/-- Settles O52: the rows of the table, and the range check beyond them. -/
theorem wselTable : Obligations.WselTable := fun _ _ hf =>
  ⟨fun h => exec_wsel_of_widthSelect hf (by omega) (widthSelect_of_le_8 h),
    fun h h' => exec_wsel_of_widthSelect hf (by omega) (widthSelect_of_le_16 h h'),
    fun h h' => exec_wsel_of_widthSelect hf (by omega) (widthSelect_of_le_32 h h'),
    fun h h' => exec_wsel_of_widthSelect hf h' (widthSelect_of_ge_33 h),
    exec_wsel_of_gt hf⟩

/-- Settles O53: the result is `widthSelect n`, which reads no parameter. -/
theorem wselDoesNotDependOnTheInstance : Obligations.WselDoesNotDependOnTheInstance :=
  fun _ _ _ hf hf' hn => ⟨_, exec_wsel_of_le hf hn, exec_wsel_of_le hf' hn⟩

end Sys2Proof
end

section
/-! PROOFS. The faults of 60_exceptions.md: what each check answers (R143 to R145), that a command is its check before
its meaning, which fault a command raises (R141, R142, R147), and that a faulted state stops (R150). -/

namespace Sys2Proof

/-- What the decoder rejects, both ways and in its order (30_encoding.md R69). -/
theorem decode_eq_error_iff {c : Command} {r : DecodeReject} :
    decode c = .error r ↔
      ((c.op = 0 ∨ 5 ≤ c.op) ∧ r = .opcode) ∨
      (¬ (c.op = 0 ∨ 5 ≤ c.op) ∧ c.rsv ≠ 0 ∧ r = .reservedBits) ∨
      (c.op = 4 ∧ c.rsv = 0 ∧ c.w ≠ 0 ∧ r = .wselWidth) := by
  constructor
  · intro h
    unfold decode at h
    split_ifs at h with hop hrsv hwsel <;> cases h
    · exact .inr (.inl ⟨by omega, hrsv, rfl⟩)
    · exact .inr (.inr ⟨hwsel.1, not_not.1 hrsv, hwsel.2, rfl⟩)
    · exact .inl ⟨by omega, rfl⟩
  · rintro (⟨ho, rfl⟩ | ⟨ho, hr, rfl⟩ | ⟨ho, hr, hw, rfl⟩)
    · exact decode_of_reserved_op ho
    · rw [decode, if_neg (by omega), if_pos hr]
    · rw [decode, if_neg (by omega), if_neg (not_not.2 hr), if_pos ⟨ho, hw⟩]

namespace Machine

variable {c : Config} {s : State} {f : Fault} {w i n : Nat}

/-! ### What the checks answer -/

theorem checkWidthRange_of_out (h : w < 1 ∨ c.wb < w) : checkWidthRange c w = some .fWidth := if_pos h

/-- `check_width` as a chain of tests: with FIXED_W = NONE every width is its own default (60_exceptions.md R143). -/
theorem checkWidth_eq_ite :
    checkWidth c w =
      if w < 1 ∨ c.wb < w then some .fWidth else if c.fixedW.getD w ≠ w then some .fWidth else none := by
  by_cases h : w < 1 ∨ c.wb < w
  · rw [checkWidth, checkWidthRange_of_out h, if_pos h, Option.some_or]
  · rw [checkWidth, checkWidthRange_eq_none.2 (by omega), if_neg h, Option.none_or]
    cases c.fixedW with
    | none => simp
    | some f => simp [eq_comm]

theorem checkWidth_of_bad (h : w < 1 ∨ c.wb < w ∨ ∃ f, c.fixedW = some f ∧ w ≠ f) :
    checkWidth c w = some .fWidth := by
  refine (checkWidth_cases c w).resolve_left fun hpass => ?_
  obtain ⟨hrange, hfix⟩ := checkWidth_eq_none.1 hpass
  obtain h | h | ⟨f, hf, hne⟩ := h
  · omega
  · omega
  · exact hne (hfix f hf)

/-- A width that fails is reported before the index is looked at (60_exceptions.md R147). -/
theorem checkCodec_of_bad_width (h : w < 1 ∨ c.wb < w ∨ ∃ f, c.fixedW = some f ∧ w ≠ f) :
    checkCodec c w i = some .fWidth := by
  rw [checkCodec, checkWidth_of_bad h, Option.some_or]

theorem checkCodec_of_bad_index (hw : checkWidth c w = none) (hi : c.bufWords * c.wb < (i + 1) * w) :
    checkCodec c w i = some .fIndex := by
  rw [checkCodec, hw, Option.none_or, checkIndex, if_pos hi]

/-! ### A command is its check before its meaning -/

/-- The check a decoded command makes (40_codec.md R100, 41_sizing.md R121, R126). -/
def checkInstr (c : Config) : Instr → Option Fault
  | .get w i => checkCodec c w i
  | .set w i _ => checkCodec c w i
  | .packs w _ => checkWidthRange c w
  | .wsel n => checkWsel n

/-- Every command looks at FAULT, then makes its check, and only then does something. -/
theorem exec_eq_checked (i : Instr) (s : State) :
    ∃ k, exec i s = ifRunning s (unlessFault s (checkInstr s.cfg i) k) := by
  cases i with
  | get w i => exact ⟨_, rfl⟩
  | set w i v => exact ⟨_, rfl⟩
  | packs w n => exact ⟨_, rfl⟩
  | wsel n => exact ⟨_, rfl⟩

theorem exec_of_check_some {j : Instr} (hf : s.fault = none) (h : checkInstr s.cfg j = some f) :
    exec j s = .next { s with fault := some f } := by
  obtain ⟨k, hk⟩ := exec_eq_checked j s
  rw [hk, ifRunning_of_none hf, h, unlessFault_some]
  rfl

/-- A command whose check passes completes: it raises nothing, and the memory port refuses nothing. -/
theorem exec_of_check_none {j : Instr} (hf : s.fault = none) (h : checkInstr s.cfg j = none) :
    ∃ t, exec j s = .next t ∧ t.fault = none := by
  cases j with
  | get w i =>
    have ha : CodecAccepts s.cfg w i := accepts_of_checkCodec h
    have ⟨h1, hw, _, hi⟩ := ha
    obtain ⟨v, hrun, -⟩ := getPort_bits h1 hw hi s.buf
    exact ⟨_, (execGet_of_accepts hf ha).trans (runPort_of_ok hrun), hf⟩
  | set w i v => exact ⟨_, execSet_of_accepts hf (accepts_of_checkCodec h), hf⟩
  | packs w n =>
    obtain ⟨h1, hw⟩ := checkWidthRange_eq_none.1 h
    exact ⟨_, exec_packs_of_width hf h1 hw, hf⟩
  | wsel n => exact ⟨_, exec_wsel_of_le hf (checkWsel_eq_none.1 h), hf⟩

/-! ### The first fault of a command -/

theorem firstFault_of_reserved_op {op rsv : Nat} (h : op = 0 ∨ 5 ≤ op) : firstFault c op w rsv i = some .fOpcode :=
  if_pos h

theorem firstFault_of_reserved_bits {op rsv : Nat} (ho : ¬ (op = 0 ∨ 5 ≤ op)) (hr : rsv ≠ 0) :
    firstFault c op w rsv i = some .fReserved := by
  rw [firstFault, if_neg ho, if_pos hr]

theorem firstFault_of_wsel_width (hw : w ≠ 0) : firstFault c 4 w 0 i = some .fReserved := by
  simp [firstFault, hw]

theorem firstFault_codec {op : Nat} (ho : op = 1 ∨ op = 2) : firstFault c op w 0 i = checkCodec c w i := by
  have hres : ¬ (op = 0 ∨ 5 ≤ op) := by omega
  have h4 : op ≠ 4 := by omega
  simp only [firstFault, hres, h4, ho, ne_eq, not_true_eq_false, not_false_eq_true, true_and, false_and, if_false,
    checkCodec, checkWidth_eq_ite, checkIndex, gt_iff_lt]
  split_ifs <;> rfl

theorem firstFault_packs : firstFault c 3 w 0 n = checkWidthRange c w := by
  simp [firstFault, checkWidthRange]

theorem firstFault_wsel : firstFault c 4 0 0 n = checkWsel n := by
  simp [firstFault, checkWsel]

theorem firstFault_of_decode_error {m : Command} {r : DecodeReject} (h : decode m = .error r) :
    firstFault c m.op m.w m.rsv i = some (rejectFault r) := by
  obtain ⟨ho, rfl⟩ | ⟨ho, hr, rfl⟩ | ⟨ho, hr, hw, rfl⟩ := decode_eq_error_iff.1 h
  · exact firstFault_of_reserved_op ho
  · exact firstFault_of_reserved_bits ho hr
  · rw [ho, hr]
    exact firstFault_of_wsel_width hw

theorem firstFault_of_decode_ok {m : Command} {j : Instr} (h : decode m = .ok j) :
    firstFault c m.op m.w m.rsv m.idx.toNat = checkInstr c j := by
  obtain ⟨hr, ⟨ho, rfl⟩ | ⟨ho, rfl⟩ | ⟨ho, rfl⟩ | ⟨ho, hw, rfl⟩⟩ := decode_ok h
  · rw [hr]
    exact firstFault_codec (.inl ho)
  · rw [hr]
    exact firstFault_codec (.inr ho)
  · rw [hr, ho]
    exact firstFault_packs
  · rw [hr, ho, hw]
    exact firstFault_wsel

/-! ### Steps that raise a fault, and no step after one -/

theorem step_of_decode_error {m : Command} {r : DecodeReject} {rest : List HostAction} (hf : s.fault = none)
    (hp : s.pending = .issue m :: rest) (h : decode m = .error r) :
    step s = .next { s with pending := rest, fault := some (rejectFault r) } := by
  rw [step_of_issue hf hp, h]
  rfl

theorem hostReadRes_of_none (hf : s.fault = none) (hr : s.res = none) :
    hostReadRes s = .next (s.raise .fResUnwritten) := by
  rw [hostReadRes, ifRunning_of_none hf, hr]

theorem exec_of_faulted (h : s.fault = some f) (j : Instr) : exec j s = .fault f := by
  obtain ⟨k, hk⟩ := exec_eq_checked j s
  rw [hk, ifRunning_of_some h]

theorem perform_of_faulted (h : s.fault = some f) (a : HostAction) : perform a s = .fault f := by
  cases a with
  | issue m => exact ifRunning_of_some h
  | readRes => exact ifRunning_of_some h
  | readBuf k => exact ifRunning_of_some h
  | writeBuf k v => exact ifRunning_of_some h
  | reset => exact ifRunning_of_some h

end Machine

open Sys2Proof.Machine

/-- Settles O8: GET and SET make `checkCodec`, whose width part comes first; PACKS makes the range check alone. -/
theorem widthCheck : Obligations.WidthCheck := by
  intro s hf
  refine ⟨fun w i v h => ?_, fun w n h => ?_, fun w n h1 hw => ?_⟩
  · have hc : checkCodec s.cfg w i = some .fWidth := checkCodec_of_bad_width h
    exact ⟨exec_of_check_some hf hc, exec_of_check_some hf hc⟩
  · exact exec_of_check_some hf (checkWidthRange_of_out h)
  · exact exec_of_check_none hf (checkWidthRange_eq_none.2 ⟨h1, hw⟩)

/-- Settles O9: an element has at least one bit, so an empty buffer (BUF_WORDS = 0) is too short for it as well. -/
theorem indexCheck : Obligations.IndexCheck := by
  intro s w i v hf h1 hw hfix
  have hwidth : checkWidth s.cfg w = none := checkWidth_eq_none.2 ⟨⟨h1, hw⟩, hfix⟩
  refine ⟨fun h => ?_, fun hi => ?_⟩
  · have hpos : 0 < (i + 1) * w := Nat.mul_pos i.succ_pos h1
    have hover : s.cfg.bufWords * s.cfg.wb < (i + 1) * w := h.elim id fun h0 => by rwa [h0, Nat.zero_mul]
    have hc : checkCodec s.cfg w i = some .fIndex := checkCodec_of_bad_index hwidth hover
    exact ⟨exec_of_check_some hf hc, exec_of_check_some hf hc⟩
  · have hc : checkCodec s.cfg w i = none := checkCodec_of_accepts ⟨h1, hw, hfix, hi⟩
    obtain ⟨t, ht, htf⟩ := exec_of_check_none (j := .get w i) hf hc
    obtain ⟨u, hu, huf⟩ := exec_of_check_none (j := .set w i v) hf hc
    exact ⟨t, u, ht, htf, hu, huf⟩

/-- Settles O12: a rejected command word raises its fault, and a decoded command what its check finds; `firstFault`
names the same fault in both cases. -/
theorem faultPriority : Obligations.FaultPriority := by
  intro s c rest hf hp
  rw [← op_eq_mod, ← w_eq_div_mod, ← rsv_eq_div]
  cases hd : decode c with
  | error r =>
    rw [firstFault_of_decode_error hd]
    exact ⟨_, step_of_decode_error hf hp hd, rfl, fun _ => rfl⟩
  | ok j =>
    have hstep : step s = exec j { s with pending := rest } := by rw [step_of_issue hf hp, hd]
    rw [firstFault_of_decode_ok hd, hstep]
    cases hc : checkInstr s.cfg j with
    | none =>
      obtain ⟨t, ht, htf⟩ := exec_of_check_none (s := { s with pending := rest }) hf hc
      exact ⟨t, ht, htf, fun h => absurd rfl h⟩
    | some f => exact ⟨_, exec_of_check_some (s := { s with pending := rest }) hf hc, rfl, fun _ => rfl⟩

/-- Settles O5: the decoder looks at OP first. -/
theorem reservedOpcodeFaults : Obligations.ReservedOpcodeFaults := by
  intro s c rest hf hp ho
  rw [← op_eq_mod] at ho
  exact step_of_decode_error hf hp (decode_of_reserved_op ho)

/-- Settles O6: RSV ≠ 0 is one rejection, W ≠ 0 in a WSEL with a clear RSV the other, and both raise F_RESERVED. -/
theorem reservedFieldFaults : Obligations.ReservedFieldFaults := by
  intro s c rest hf hp h1 h4 h
  rw [← op_eq_mod] at h1 h4
  rw [← rsv_eq_div, ← op_eq_mod, ← w_eq_div_mod] at h
  by_cases hr : c.rsv = 0
  · obtain ⟨ho, hw⟩ := h.resolve_left (not_not.2 hr)
    exact step_of_decode_error hf hp (decode_eq_error_iff.2 (.inr (.inr ⟨ho, hr, hw, rfl⟩)))
  · exact step_of_decode_error hf hp (decode_eq_error_iff.2 (.inr (.inl ⟨by omega, hr, rfl⟩)))

/-- Settles O10: the fault row of `exec_wsel_of_gt`. -/
theorem wselRangeFaults : Obligations.WselRangeFaults := fun _ _ hf hn => exec_wsel_of_gt hf hn

/-- Settles O11: the step takes the read HOST has pending. -/
theorem unwrittenResReadFaults : Obligations.UnwrittenResReadFaults := by
  intro s rest hf hr hp
  rw [step_of_pending hf hp]
  exact hostReadRes_of_none hf hr

/-- Settles O13: the step, every command and every HOST action look at FAULT first. -/
theorem faultedStateIsQuiescent : Obligations.FaultedStateIsQuiescent := fun _ _ h =>
  ⟨ifRunning_of_some h, exec_of_faulted h, perform_of_faulted h⟩

end Sys2Proof
end

section
/-! PROOFS. RESET as the action a step takes (70_reset_and_hazards.md R170), and the block waiting for HOST (R172). -/

namespace Sys2Proof.Machine

variable {s : State}

/-- RESET in a running state completes: RES holds no value, and everything else stays. -/
theorem hostReset_of_none (hf : s.fault = none) : hostReset s = .next { s with res := none } :=
  ifRunning_of_none hf

/-- The companion of `step_of_pending`: a running state without a HOST action stays. -/
theorem step_of_no_pending (hf : s.fault = none) (hp : s.pending = []) : step s = .next s := by
  rw [step, ifRunning_of_none hf, hp]

end Sys2Proof.Machine

namespace Sys2Proof

open Sys2Proof.Machine

/-- Settles O15: the step takes the RESET HOST has pending. -/
theorem resetAction : Obligations.ResetAction := by
  intro s rest hf hp
  rw [step_of_pending hf hp]
  exact hostReset_of_none (s := { s with pending := rest }) hf

/-- Settles O21: with no action to take, the step leaves the state. -/
theorem blockWaitsForHost : Obligations.BlockWaitsForHost := fun _ hf hp => step_of_no_pending hf hp

end Sys2Proof
end
